-- ==== Sys2Proof/Word.lean ====
section
/-!
DEFINITION. The words the block works on: bytes, 32-bit register words, and the fixed-length byte buffers of
spec/10_state.md R29 to R32, with the one way the model builds a buffer from a formula for its elements.
-/

namespace Sys2Proof

/-- A byte (spec/00_scope.md R9). -/
abbrev Byte := BitVec 8

/-- A host register word (spec/20_memory.md R39). -/
abbrev Word := BitVec 32

/-- One codeword, or one corrected codeword: 255 bytes (spec/00_scope.md R10). -/
abbrev Codeword := Vector Byte 255

/-- Five rows of 255 bytes: the shape of `CW` and `CC` (spec/10_state.md R30, R31). -/
abbrev Rows := Vector Codeword 5

/-- A raw input unit: 1279 bytes, 4 of header and 1275 of payload (spec/20_memory.md R41). -/
abbrev RawUnit := Vector Byte 1279

/-- 1275 bytes: a payload, or an output frame (spec/20_memory.md R42). -/
abbrev Frame := Vector Byte 1275

/-- The vector whose element `i` is `f i`. The list underneath is built lazily from the front, so that the kernel reads
one element without computing the others; it is irreducible to the elaborator, which would otherwise unfold a thousand
elements to compare two states. -/
@[irreducible] def tabulate {α : Type} (n : Nat) (f : Fin n → α) : Vector α n :=
  ⟨(List.ofFn f).toArray, by rw [List.size_toArray, List.length_ofFn]⟩

/-- Element `i` of a tabulated vector is the formula at `i`. -/
@[simp] theorem getElem_tabulate {α : Type} {n : Nat} (f : Fin n → α) (i : Nat) (h : i < n) :
    (tabulate n f)[i] = f ⟨i, h⟩ := by
  simp [tabulate]

end Sys2Proof
end

