-- ==== Sys2Proof/Config.lean ====
section
/-!
DEFINITION. What is fixed for the life of the block and is none of its own state (spec/00_scope.md R6, R7, spec/10_state.md R12):
the sizes, the configuration, and the constants the spec leaves OPEN. An OPEN constant has no body: nothing can be proved
of its value, so a theorem that mentions it holds whatever it is.
-/

namespace Sys2Proof

/-! ## Sizes (spec/00_scope.md R6) -/

/-- `N_CW`, the codewords of a frame. -/
abbrev nCw : Nat := 5
/-- `CW_LEN`, the bytes of a codeword. -/
abbrev cwLen : Nat := 255
/-- `HDR_LEN`, the header bytes skipped. -/
abbrev hdrLen : Nat := 4
/-- `PAYLOAD_LEN`, the payload bytes of a frame. -/
abbrev payloadLen : Nat := 1275
/-- `UNIT_LEN`, the bytes consumed for a frame. -/
abbrev unitLen : Nat := 1279
/-- `TBL_LEN`, the entries of a domain-translate table. -/
abbrev tblLen : Nat := 256
/-- `PRBS_LEN`, the entries of the derandomisation sequence. -/
abbrev prbsLen : Nat := 255

/-! ## Environment data -/

/-- One input stream: the units not yet released, head first, and whether the stream has ended
(spec/43_io_adapter_commands.md R96). -/
structure InputStream where
  queue : List RawUnit
  ended : Bool
deriving DecidableEq, Repr, Inhabited

/-- What the codec port answers for one codeword. `answer` is the result the spec types, 255 bytes with the flag
`ok` (spec/41_codec_port.md R74); `malformed` is a result of another length, which the port contract forbids
(spec/60_exceptions.md R114, PortContract). -/
inductive CodecAnswer where
  | answer (ok : Bool) (msg : Codeword)
  | malformed (bytes : List Byte)
deriving DecidableEq, Repr

/-- One answer the environment's codec is known to give: the codeword, the flag and the bytes it presents for it. -/
structure CodecObservation where
  codeword : Codeword
  ok : Bool
  bytes : List Byte
deriving DecidableEq, Repr

/-- The codec bound to the port, as plain data (spec/41_codec_port.md R75, log entry 4). The codewords of `observed` get the
answers recorded there; every other codeword gets the answer of the OPEN codec function that `handle` names. -/
structure CodecBinding where
  handle : Nat
  observed : List CodecObservation
deriving DecidableEq, Repr

/-! ## The configuration -/

/-- The table `g` undoes the table `f`: `g[f[v]] = v` for every byte `v` (spec/00_scope.md R8). -/
def tableUndoes (g f : Vector Byte 256) : Bool :=
  decide (∀ v : Fin 256, (g[(f[v.val]).toNat]).toNat = v.val)

/-- A configuration as it is handed to the block: two tables nothing has checked yet (spec/00_scope.md R7).
`codecWriteLen` is the parameter `CODEC_WRITE_LEN` of spec/92_eei_decisions.md D11, with its default. -/
structure RawConfig where
  fwd : Vector Byte 256
  rev : Vector Byte 256
  prbs : Vector Byte 255
  codec : CodecBinding
  codecConfigOk : Bool
  codecWriteLen : Nat := 255
deriving DecidableEq, Repr

/-- A well-formed configuration: its tables undo each other, so that an ill-formed pair cannot be written down
(spec/00_scope.md R8). -/
structure Config extends RawConfig where
  revUndoesFwd : tableUndoes rev fwd = true
  fwdUndoesRev : tableUndoes fwd rev = true
deriving DecidableEq, Repr

/-! ## The OPEN constants (spec/93_implementation_defined.md I1 to I5, I13, I14) -/

/-- FWD, with REV its inverse: OPEN (spec/92_eei_decisions.md D19). -/
opaque Config.dualBasisTable : Equiv.Perm Byte

/-- PRBS: OPEN (spec/92_eei_decisions.md D19). -/
opaque Config.prbsTable : Vector Byte 255

/-- The codec functions, one for every handle, each a total function of the codeword alone: OPEN
(spec/41_codec_port.md R75). -/
opaque Config.codecFunction : Nat → Codeword → Bool × Codeword

/-- CODEC_CONFIG_OK: OPEN (spec/92_eei_decisions.md D18). -/
opaque Config.codecConstructed : Bool

/-- SOURCES at power-on, the streams of ids 1 to 255 in order: OPEN (spec/92_eei_decisions.md D9). -/
opaque Config.sources : Vector InputStream 255

/-- `Out.ready` at power-on, a draw of the sink: OPEN (spec/92_eei_decisions.md D13). -/
opaque Config.sinkReady : Bool

/-- DEC_BASE, where the register window sits in a host's address map: OPEN (spec/20_memory.md R35). -/
opaque Config.decBase : Nat

/-! ## The installed configuration -/

/-- The table of a function of a byte. -/
def tableOf (f : Byte → Byte) : Vector Byte 256 := tabulate 256 fun v => f (BitVec.ofNat 8 v.val)

/-- The tables of a permutation and its inverse undo each other. -/
theorem tableUndoes_tableOf {g f : Byte → Byte} (h : ∀ v, g (f v) = v) : tableUndoes (tableOf g) (tableOf f) = true := by
  simp only [tableUndoes, tableOf, getElem_tabulate, decide_eq_true_eq]
  intro v
  simp [h]

/-- The configuration of `State.reset`: OPEN tables, sequence and codec flag, and a codec that answers with the function of
handle 0. CODEC_WRITE_LEN stays at its default, since spec/41_codec_port.md R77 has the block write all 255 bytes
(log entry 5). -/
def Config.installed : Config where
  fwd := tableOf Config.dualBasisTable
  rev := tableOf Config.dualBasisTable.symm
  prbs := Config.prbsTable
  codec := { handle := 0, observed := [] }
  codecConfigOk := Config.codecConstructed
  codecWriteLen := 255
  revUndoesFwd := tableUndoes_tableOf Config.dualBasisTable.symm_apply_apply
  fwdUndoesRev := tableUndoes_tableOf Config.dualBasisTable.apply_symm_apply

end Sys2Proof
end

