-- ==== Sys2Proof/Syntax.lean ====
section
/-!
DEFINITION. The instructions: one constructor per row of spec/opcode_table.json, the five host commands
(spec/30_encoding.md R54) and the nine rows of step codes (spec/30_encoding.md R55).
-/

namespace Sys2Proof

/-- A command a host writes to CMD, or a step the orchestrator's `state` selects. DECODE's operand `cw_idx` is read from
the state and is no field of its encoding (spec/30_encoding.md R52). -/
inductive Instr where
  /-- NOP, spec/43_io_adapter_commands.md R101. -/
  | nop
  /-- PROCESS_ONE, spec/43_io_adapter_commands.md R102. -/
  | processOne
  /-- RUN, spec/43_io_adapter_commands.md R103. -/
  | run
  /-- CANCEL, spec/43_io_adapter_commands.md R104. -/
  | cancel
  /-- SET_INPUT s, spec/43_io_adapter_commands.md R106; `src = 0` detaches. -/
  | setInput (src : BitVec 8)
  /-- IDLE, step code 0, spec/42_orchestrator.md R85. -/
  | idle
  /-- FETCH, step code 1, spec/42_orchestrator.md R86. -/
  | fetch
  /-- DEINT, step code 2, spec/42_orchestrator.md R87. -/
  | deint
  /-- DECODE, step code 3, spec/42_orchestrator.md R88. -/
  | decode
  /-- REINT, step code 4, spec/42_orchestrator.md R89. -/
  | reint
  /-- EMIT, step code 5, spec/42_orchestrator.md R90. -/
  | emit
  /-- RELEASE, step code 6, spec/42_orchestrator.md R91. -/
  | release
  /-- FATAL, step code 7, spec/42_orchestrator.md R92. -/
  | fatal
  /-- RESERVED_STEP, step codes 8 to 15, spec/30_encoding.md R60. -/
  | reservedStep (code : BitVec 4)
deriving DecidableEq, Repr

end Sys2Proof
end

