-- ==== Sys2Proof/WellFormed.lean ====
section
/-!
DEFINITION. The checks on terms: which instructions have an encoding, and which raw configurations the block accepts.
-/

namespace Sys2Proof

/-- An instruction is well formed if its fields fit its row of the table: the code of a reserved step has bit 3 set
(spec/30_encoding.md R55, R60). No other operand is constrained (spec/30_encoding.md R56). -/
def Instr.wf : Instr → Bool
  | .reservedStep code => 8 ≤ code.toNat
  | .nop | .processOne | .run | .cancel | .setInput _ => true
  | .idle | .fetch | .deint | .decode | .reint | .emit | .release | .fatal => true

/-- A raw configuration is well formed if its tables are an exact inverse pair: `REV[FWD[v]] = v` and `FWD[REV[v]] = v` for
every byte (spec/00_scope.md R8). FWD is then a permutation of the bytes, having an inverse on both sides. -/
def RawConfig.wf (c : RawConfig) : Bool := tableUndoes c.rev c.fwd && tableUndoes c.fwd c.rev

end Sys2Proof
end

