-- ==== Sys2Proof/Decode.lean ====
section
/-!
DEFINITION. The two formats of spec/30_encoding.md (R51 to R56, R58, R60): the decoder, total on any bytes and rejecting by
name, and after it the encoder, written from the same tables.
-/

namespace Sys2Proof

/-! ## Byte lanes of a word (spec/20_memory.md R39) -/

/-- The four bytes a bus presents for a register word, byte 0 (the lowest address) first: bits 7:0, 15:8, 23:16, 31:24. -/
def lanesOfWord (w : Word) : List Byte :=
  [w.extractLsb' 0 8, w.extractLsb' 8 8, w.extractLsb' 16 8, w.extractLsb' 24 8]

/-- The word four bytes make, the byte of the lowest address first. -/
def wordOfLanes (b0 b1 b2 b3 : Byte) : Word := b3 ++ b2 ++ b1 ++ b0

/-! ## Fields of the command word (spec/30_encoding.md R51) -/

/-- OP, bits 7:0. -/
def fieldOp (w : Word) : BitVec 8 := w.extractLsb' 0 8

/-- ARG, bits 15:8. -/
def fieldArg (w : Word) : BitVec 8 := w.extractLsb' 8 8

/-- RSV, bits 31:16. -/
def fieldRsv (w : Word) : BitVec 16 := w.extractLsb' 16 16

/-! ## The decoder -/

/-- Why a word or a string of bytes is no instruction. The first three are the illegal command words of
spec/30_encoding.md R58; the last is a length no format has (R53). -/
inductive DecodeError where
  | reservedFieldNotZero
  | argumentNotZero
  | unassignedOpcode (op : BitVec 8)
  | noSuchLength (bytes : Nat)
deriving DecidableEq, Repr

/-- The command a word written to CMD stands for (spec/30_encoding.md R54, R56, R58). -/
def decodeCommand (w : Word) : Except DecodeError Instr :=
  if fieldRsv w = 0 then
    match (fieldOp w).toNat with
    | 0 => if fieldArg w = 0 then .ok .nop else .error .argumentNotZero
    | 1 => if fieldArg w = 0 then .ok .processOne else .error .argumentNotZero
    | 2 => if fieldArg w = 0 then .ok .run else .error .argumentNotZero
    | 3 => if fieldArg w = 0 then .ok .cancel else .error .argumentNotZero
    | 4 => .ok (.setInput (fieldArg w))
    | _ => .error (.unassignedOpcode (fieldOp w))
  else .error .reservedFieldNotZero

/-- The step a value of `state` selects (spec/30_encoding.md R52, R55, R60). -/
def decodeStep (code : BitVec 4) : Instr :=
  match code.toNat with
  | 0 => .idle
  | 1 => .fetch
  | 2 => .deint
  | 3 => .decode
  | 4 => .reint
  | 5 => .emit
  | 6 => .release
  | 7 => .fatal
  | _ => .reservedStep code

/-- What carries an instruction: a command word, or a step selector (spec/30_encoding.md R53: exactly two formats). -/
inductive Code where
  | command (w : Word)
  | step (code : BitVec 4)
deriving DecidableEq, Repr

/-- The instruction a code stands for. -/
def decode : Code → Except DecodeError Instr
  | .command w => decodeCommand w
  | .step code => .ok (decodeStep code)

/-- The code a string of bytes holds: four bytes are a command word in little-endian order, one byte is a step selector
in its bits 3:0 (STATUS bits 3:0; the byte's other bits belong to no format, log entry 11). -/
def codeOfBytes : List Byte → Except DecodeError Code
  | [b] => .ok (.step (b.extractLsb' 0 4))
  | [b0, b1, b2, b3] => .ok (.command (wordOfLanes b0 b1 b2 b3))
  | bytes => .error (.noSuchLength bytes.length)

/-- The instruction a string of bytes stands for. -/
def decodeBytes (bytes : List Byte) : Except DecodeError Instr :=
  match codeOfBytes bytes with
  | .ok code => decode code
  | .error e => .error e

/-- The `n` bytes of the number `w`, the least significant first. -/
def bytesOfNat : Nat → Nat → List Byte
  | 0, _ => []
  | n + 1, w => BitVec.ofNat 8 w :: bytesOfNat n (w / 256)

/-- The instruction the decoder reads from the bits of `w`, numbered as spec/opcode_table.json numbers them. -/
def decodeTableWord (nbits w : Nat) : Option Instr :=
  match decodeBytes (bytesOfNat ((nbits + 7) / 8) w) with
  | .ok i => some i
  | .error _ => none

/-! ## The encoder -/

/-- The word of SET_INPUT: `0x00000004 | (s << 8)` (spec/30_encoding.md R54). -/
def setInputWord (src : BitVec 8) : Word := 0#16 ++ src ++ 4#8

/-- The code of an instruction (spec/30_encoding.md R54, R55). -/
def encode : Instr → Code
  | .nop => .command 0x00000000#32
  | .processOne => .command 0x00000001#32
  | .run => .command 0x00000002#32
  | .cancel => .command 0x00000003#32
  | .setInput src => .command (setInputWord src)
  | .idle => .step 0#4
  | .fetch => .step 1#4
  | .deint => .step 2#4
  | .decode => .step 3#4
  | .reint => .step 4#4
  | .emit => .step 5#4
  | .release => .step 6#4
  | .fatal => .step 7#4
  | .reservedStep code => .step code

/-- The bytes that hold a code: a command word's four lanes, or one byte with the step selector in bits 3:0. -/
def bytesOfCode : Code → List Byte
  | .command w => lanesOfWord w
  | .step code => [code.setWidth 8]

end Sys2Proof
end

