-- ==== Sys2Proof/Machine/State.lean ====
section
/-!
DEFINITION. The state: the block's own tuple (spec/10_state.md R12), the environment its rules read and write
(spec/43_io_adapter_commands.md R96 to R98), the model's own records, and the machine right after reset.
Plain data throughout.
-/

namespace Sys2Proof.Machine

/-! ## Step codes (spec/30_encoding.md R55) -/

@[simp] abbrev codeIdle : BitVec 4 := 0#4
@[simp] abbrev codeFetch : BitVec 4 := 1#4
@[simp] abbrev codeDeint : BitVec 4 := 2#4
@[simp] abbrev codeDecode : BitVec 4 := 3#4
@[simp] abbrev codeReint : BitVec 4 := 4#4
@[simp] abbrev codeEmit : BitVec 4 := 5#4
@[simp] abbrev codeRelease : BitVec 4 := 6#4
@[simp] abbrev codeFatal : BitVec 4 := 7#4

/-! ## The block -/

/-- The outcome of the frame in progress, `pend_kind` (spec/10_state.md R23). -/
inductive PendKind where
  | ok
  | dropped
deriving DecidableEq, Repr

/-- The state of one decoder block, the tuple of spec/10_state.md R12. -/
structure Block where
  /-- `state`, the orchestrator's current step (R14). -/
  state : BitVec 4
  /-- `cw_idx`, the codeword DECODE works on (R15). -/
  cwIdx : BitVec 3
  /-- `run`, continuous mode (R16). -/
  run : Bool
  /-- `fatal` (R17). -/
  fatal : Bool
  /-- `swap_pending` (R18). -/
  swapPending : Bool
  /-- `cancel_pending` (R19). -/
  cancelPending : Bool
  /-- `cmd_err`, sticky (R20). -/
  cmdErr : Bool
  /-- `src_id`, the attached source; 0 means none (R21). -/
  srcId : BitVec 8
  /-- `pend_src`, the source a pending swap attaches (R22). -/
  pendSrc : BitVec 8
  /-- `pend_kind` (R23). -/
  pendKind : PendKind
  /-- `pend_fail` (R23). -/
  pendFail : BitVec 3
  /-- LAST_RESULT (R26). -/
  lastResult : Word
  /-- FRAMES_ATTEMPTED (R27). -/
  framesAttempted : Word
  /-- FRAMES_OK (R27). -/
  framesOk : Word
  /-- FRAMES_DROPPED (R27). -/
  framesDropped : Word
  /-- `IN_BUF` (R29). -/
  inBuf : RawUnit
  /-- `CW` (R30). -/
  cw : Rows
  /-- `CC` (R31). -/
  cc : Rows
  /-- `OUT_BUF` (R32). -/
  outBuf : Frame
deriving DecidableEq, Repr

/-! ## Events, port calls and moves -/

/-- The error events of spec/60_exceptions.md R110, for the model's event record. -/
inductive Event where
  | codecConstructionFailure
  | uncorrectableCodeword (k : BitVec 3)
  | inputExhausted
  | illegalCommand (w : Word)
  | hostAccessError
deriving DecidableEq, Repr

/-- One call on the codec port: the codeword index and the codeword sent (spec/41_codec_port.md R74). -/
structure CodecCall where
  index : BitVec 3
  codeword : Codeword
deriving DecidableEq, Repr

/-- One atomic transition of some agent (spec/20_memory.md R45, spec/42_orchestrator.md R82). -/
inductive Move where
  /-- The orchestrator's turn: the step `state` selects. -/
  | orchestrator
  /-- A host write of `n` bytes of value `v` at an offset of the window, `MemWrite` of spec/00_scope.md R9. -/
  | memWrite (offset n : Nat) (v : Word)
  /-- A host read of `n` bytes at an offset of the window, `MemRead` of spec/00_scope.md R9. -/
  | memRead (offset n : Nat)
  /-- The reset input is asserted (spec/70_reset_and_hazards.md R126). -/
  | reset
  /-- A source presents a unit of input (spec/43_io_adapter_commands.md R96). -/
  | deliver (src : BitVec 8) (bytes : List Byte)
  /-- A source's stream ends (spec/43_io_adapter_commands.md R96). -/
  | endStream (src : BitVec 8)
  /-- The sink sets `Out.ready` (spec/43_io_adapter_commands.md R98). -/
  | sinkReady (ready : Bool)
deriving DecidableEq, Repr

/-! ## The whole state -/

/-- The machine: its configuration, the block, the block's environment, and the model's own records (INVENTORY.md, State). -/
structure State where
  /-- The configuration the block was booted with. No step changes it (spec/70_reset_and_hazards.md R137, log entry 22). -/
  config : Config
  /-- The decoder block. -/
  block : Block
  /-- The input streams of ids 1 to 255, in order (spec/43_io_adapter_commands.md R96). -/
  sources : Vector InputStream 255
  /-- `Out.ready` (spec/43_io_adapter_commands.md R98). -/
  outReady : Bool
  /-- The frames the sink has received, oldest first (spec/43_io_adapter_commands.md R98). -/
  sink : List Frame
  /-- The model's own: the moves still to be made, in order; with none left the orchestrator moves (log entry 1). -/
  agenda : List Move
  /-- The model's own: the values host reads have returned, oldest first (log entry 12). -/
  hostReads : List Word
  /-- The model's own: the events raised, oldest first (spec/60_exceptions.md R110, log entry 12). -/
  events : List Event
  /-- The model's own: the calls made on the codec port, oldest first (log entry 12). -/
  codecCalls : List CodecCall
deriving DecidableEq, Repr

/-! ## Faults and refusals -/

/-- Why a step stops with a fault. -/
inductive Fault where
  /-- `state` holds a reserved code 8 to 15 when the orchestrator moves, or `cw_idx` is above 4 in DECODE
  (spec/60_exceptions.md R114, BadState). Raised by RESERVED_STEP and by DECODE. Safe: the spec asks for this fault. -/
  | badState
deriving DecidableEq, Repr

/-- Why the model refuses. -/
inductive Refusal where
  /-- An instruction without a meaning. Raised by no arm: every instruction of the table has its meaning. Safe. -/
  | notModelled (mnemonic : String)
  /-- The configuration's tables are not an inverse pair (spec/60_exceptions.md R114, ConfigRefused). Raised when a
  configuration is loaded, by `boot`. Safe: the spec asks for this refusal. -/
  | configRefused
  /-- The environment presents a unit of other than 1279 bytes or a codec result of other than 255
  (spec/60_exceptions.md R114, PortContract). Raised by the move `deliver` and by DECODE. Safe: the spec asks for it. -/
  | portContract
deriving DecidableEq, Repr

/-! ## Reset -/

/-- Every byte zero: the reset contents of the buffers (spec/70_reset_and_hazards.md R127). -/
def zeroBytes (n : Nat) : Vector Byte n := Vector.replicate n 0#8

/-- Every byte of the five rows zero: the reset contents of `CW` and `CC` (spec/10_state.md R30, R31). -/
def zeroRows : Rows := Vector.replicate 5 (zeroBytes 255)

/-- The block right after reset (spec/70_reset_and_hazards.md R127): `state` and `fatal` depend on whether the codec was
constructed, everything else is zero. -/
def Block.reset (c : Config) : Block where
  state := if c.codecConfigOk then codeIdle else codeFatal
  cwIdx := 0#3
  run := false
  fatal := !c.codecConfigOk
  swapPending := false
  cancelPending := false
  cmdErr := false
  srcId := 0#8
  pendSrc := 0#8
  pendKind := .ok
  pendFail := 0#3
  lastResult := 0#32
  framesAttempted := 0#32
  framesOk := 0#32
  framesDropped := 0#32
  inBuf := zeroBytes 1279
  cw := zeroRows
  cc := zeroRows
  outBuf := zeroBytes 1275

/-- The event reset raises: CodecConstructionFailure if the codec could not be constructed
(spec/70_reset_and_hazards.md R127). -/
def resetEvents (c : Config) : List Event :=
  if c.codecConfigOk then [] else [.codecConstructionFailure]

/-- Power-on with a configuration, sources and a sink: a reset (spec/70_reset_and_hazards.md R126) with nothing received by
the sink and nothing in the model's records. `agenda` is the order of moves to come. -/
def State.powerOn (c : Config) (sources : Vector InputStream 255) (ready : Bool) (agenda : List Move) : State where
  config := c
  block := Block.reset c
  sources := sources
  outReady := ready
  sink := []
  agenda := agenda
  hostReads := []
  events := resetEvents c
  codecCalls := []

/-- The machine right after reset: the OPEN configuration, sources and sink, no moves placed. -/
def State.reset : State := State.powerOn Config.installed Config.sources Config.sinkReady []

end Sys2Proof.Machine
end

