-- ==== Sys2Proof/Machine/Flags.lean ====
section
/-!
DEFINITION. The flag words a host reads: STATUS (spec/10_state.md R25) and the words of LAST_RESULT (R26), with the two
classes of `state` the command rules distinguish (spec/42_orchestrator.md R84). The block has no arithmetic flags (R34).
-/

namespace Sys2Proof.Machine

/-! ## Frame boundary (spec/42_orchestrator.md R84) -/

/-- The block is at a frame boundary: `state` is IDLE or FETCH. -/
def Block.atBoundary (b : Block) : Bool := b.state = codeIdle || b.state = codeFetch

/-- A frame is in progress: `state` is DEINT, DECODE, REINT, EMIT or RELEASE. -/
def Block.inProgress (b : Block) : Bool :=
  b.state = codeDeint || b.state = codeDecode || b.state = codeReint || b.state = codeEmit || b.state = codeRelease

/-! ## STATUS (spec/10_state.md R25) -/

/-- STATUS, from bit 31 down: PEND_SRC, SRC_ID, four reserved zeros, CMD_ERR, CANCEL_PENDING, SWAP_PENDING, FATAL, RUN,
CW_IDX, STATE. -/
def statusWord (b : Block) : Word :=
  b.pendSrc ++ b.srcId ++ 0#4 ++ BitVec.ofBool b.cmdErr ++ BitVec.ofBool b.cancelPending
    ++ BitVec.ofBool b.swapPending ++ BitVec.ofBool b.fatal ++ BitVec.ofBool b.run ++ b.cwIdx ++ b.state

/-! ## LAST_RESULT (spec/10_state.md R26) -/

/-- The word of LAST_RESULT, from bit 31 down: two reserved zeros, PRODUCED, CONSUMED, three reserved zeros, FAIL_IDX,
KIND. -/
def resultWord (kind : BitVec 2) (failIdx : BitVec 3) (consumed produced : BitVec 11) : Word :=
  0#2 ++ produced ++ consumed ++ 0#3 ++ failIdx ++ kind

/-- KIND of a LAST_RESULT word: 0 NONE, 1 OK, 2 DROPPED, 3 EOS. -/
def resultKind (w : Word) : BitVec 2 := w.extractLsb' 0 2

/-- FAIL_IDX of a LAST_RESULT word. -/
def resultFailIdx (w : Word) : BitVec 3 := w.extractLsb' 2 3

/-- CONSUMED of a LAST_RESULT word. -/
def resultConsumed (w : Word) : BitVec 11 := w.extractLsb' 8 11

/-- PRODUCED of a LAST_RESULT word. -/
def resultProduced (w : Word) : BitVec 11 := w.extractLsb' 19 11

/-- The report of an emitted frame: OK, 1279 bytes consumed, 1275 produced (spec/42_orchestrator.md R91). -/
def resultOk : Word := resultWord 1#2 0#3 (BitVec.ofNat 11 unitLen) (BitVec.ofNat 11 payloadLen)

/-- The report of a frame dropped at codeword `k`: 1279 bytes consumed, none produced (spec/42_orchestrator.md R91). -/
def resultDropped (k : BitVec 3) : Word := resultWord 2#2 k (BitVec.ofNat 11 unitLen) 0#11

/-- The report of end of stream: nothing consumed or produced (spec/42_orchestrator.md R86). -/
def resultEos : Word := resultWord 3#2 0#3 0#11 0#11

end Sys2Proof.Machine
end

