-- ==== Sys2Proof/Machine/Operands.lean ====
section
/-!
DEFINITION. The operand forms: the fixed index maps of spec/30_encoding.md R57, the codeword index of DECODE, and the
place of a source id among the streams. Nothing here can overflow or divide by zero (spec/40_interleave_translate.md R73).
-/

namespace Sys2Proof.Machine

/-! ## Index maps (spec/30_encoding.md R57) -/

/-- Codeword of payload index `i`: `i mod 5`. -/
def codewordOf (i : Fin 1275) : Fin 5 := ⟨i.val % 5, by omega⟩

/-- Position in its codeword of payload index `i`: `i div 5`. -/
def positionOf (i : Fin 1275) : Fin 255 := ⟨i.val / 5, by omega⟩

/-- Payload index of position `p` of codeword `k`: `5 p + k`. -/
def payloadIndex (k : Fin 5) (p : Fin 255) : Fin 1275 := ⟨5 * p.val + k.val, by omega⟩

/-- Unit index of payload index `i`: `4 + i`. -/
def unitIndex (i : Fin 1275) : Fin 1279 := ⟨4 + i.val, by omega⟩

/-- Derandomisation index of output position `i`: `i mod 255`. -/
def prbsIndex (i : Fin 1275) : Fin 255 := ⟨i.val % 255, by omega⟩

/-- The payload of a unit: its bytes 4 to 1278 (spec/20_memory.md R41). -/
def payloadOf (u : RawUnit) : Frame := tabulate 1275 fun i => u[unitIndex i]

/-! ## The bare stride (spec/40_interleave_translate.md R69) -/

/-- `STRIDE(B)[k][p] = B[5p + k]`. -/
def stride (b : Frame) : Rows := tabulate 5 fun k => tabulate 255 fun p => b[payloadIndex k p]

/-- `UNSTRIDE(C)[i] = C[i mod 5][i div 5]`. -/
def unstride (rows : Rows) : Frame := tabulate 1275 fun i => rows[codewordOf i][positionOf i]

/-! ## Codeword index and source id -/

/-- The codeword `cw_idx` names, if it is 0 to 4 (spec/10_state.md R15). -/
def codewordIndex (cwIdx : BitVec 3) : Option (Fin 5) :=
  if h : cwIdx.toNat < 5 then some ⟨cwIdx.toNat, h⟩ else none

/-- The place of source id `id` among the streams of ids 1 to 255; id 0 is no source (spec/10_state.md R21). -/
def sourceIndex (id : BitVec 8) : Option (Fin 255) :=
  if h : id.toNat = 0 then none else some ⟨id.toNat - 1, by have := id.isLt; omega⟩

end Sys2Proof.Machine
end

