-- ==== Sys2Proof/Machine/Ops.lean ====
section
/-!
DEFINITION. The named operations every meaning is written over: updates of the state, raising an event (the one shared
exception operation), reset, and the calls on the two stream ports and on the codec port.
-/

namespace Sys2Proof.Machine

/-! ## Updates of the state -/

/-- The state with another block. -/
def State.withBlock (s : State) (b : Block) : State := { s with block := b }

/-- The state with another order of moves to come. -/
def State.withAgenda (s : State) (agenda : List Move) : State := { s with agenda := agenda }

/-- The state with other input streams. -/
def State.withSources (s : State) (sources : Vector InputStream 255) : State := { s with sources := sources }

/-! ## Raising an event (spec/60_exceptions.md R110, R117, R118)

An event writes registers in the step that raises it and nothing more: no state is saved, control goes to no handler, and
there is no return operation. -/

/-- The code of an event, which no register holds (spec/60_exceptions.md R110). -/
def eventCode : Event → Nat
  | .codecConstructionFailure => 1
  | .uncorrectableCodeword _ => 2
  | .inputExhausted => 3
  | .illegalCommand _ => 4
  | .hostAccessError => 5

/-- What an event records in the block, in the step that raises it (spec/60_exceptions.md R110). For an uncorrectable
codeword that is the frame-outcome latch, which RELEASE publishes (spec/42_orchestrator.md R88). -/
def eventEffect (e : Event) (b : Block) : Block :=
  match e with
  | .codecConstructionFailure => { b with fatal := true, state := codeFatal }
  | .uncorrectableCodeword k => { b with pendKind := .dropped, pendFail := k, state := codeRelease }
  | .inputExhausted => { b with lastResult := resultEos, run := false, state := codeIdle }
  | .illegalCommand _ => { b with cmdErr := true }
  | .hostAccessError => { b with cmdErr := true }

/-- Raise an event: its register writes, and its entry in the event record. -/
def raiseEvent (e : Event) (s : State) : State :=
  { s with block := eventEffect e s.block, events := s.events ++ [e] }

/-! ## Reset (spec/70_reset_and_hazards.md R127, R129) -/

/-- Reset the block under its own configuration. The configuration, the streams and the sink stay as they are, and so do the
model's records. -/
def resetBlock (s : State) : State :=
  { s with block := Block.reset s.config, events := s.events ++ resetEvents s.config }

/-! ## The input port (spec/43_io_adapter_commands.md R96, R97) -/

/-- The answer of a source to a poll. -/
inductive PollAnswer where
  | unit (u : RawUnit)
  | wait
  | ended
deriving DecidableEq, Repr

/-- What a stream answers: its head unit, or END if it is empty and ended, or WAIT. -/
def pollStream (st : InputStream) : PollAnswer :=
  match st.queue with
  | u :: _ => .unit u
  | [] => if st.ended then .ended else .wait

/-- `In.poll(id)`: id 0 answers END; a poll changes nothing. -/
def poll (sources : Vector InputStream 255) (id : BitVec 8) : PollAnswer :=
  match sourceIndex id with
  | none => .ended
  | some k => pollStream sources[k]

/-- Change the stream of source `id` and no other; id 0 has no stream. -/
def updateStream (sources : Vector InputStream 255) (id : BitVec 8) (f : InputStream → InputStream) :
    Vector InputStream 255 :=
  match sourceIndex id with
  | none => sources
  | some k => sources.set k (f sources[k])

/-- A stream without its head unit (log entry 14 for an empty queue). -/
def dropHead (st : InputStream) : InputStream := { st with queue := st.queue.tail }

/-- A stream with one more unit at its tail; an ended stream gets no more units (log entry 9). -/
def appendUnit (u : RawUnit) (st : InputStream) : InputStream :=
  if st.ended then st else { st with queue := st.queue ++ [u] }

/-- A stream that has ended. -/
def markEnded (st : InputStream) : InputStream := { st with ended := true }

/-- `In.release(id, 1279)`: the head unit leaves the source. -/
def releaseUnit (sources : Vector InputStream 255) (id : BitVec 8) : Vector InputStream 255 :=
  updateStream sources id dropHead

/-- The environment presents bytes at source `src`: appended if they are one whole unit, refused at the boundary if not
(spec/20_memory.md R44, spec/60_exceptions.md R114). -/
def deliverUnit (src : BitVec 8) (bytes : List Byte) (s : State) : Host.Outcome State Fault Refusal :=
  if h : bytes.length = 1279 then
    .next (s.withSources (updateStream s.sources src
      (appendUnit ⟨bytes.toArray, by rw [List.size_toArray, h]⟩)))
  else .refused .portContract

/-- The stream of source `src` ends. -/
def endStreamOf (src : BitVec 8) (s : State) : State := s.withSources (updateStream s.sources src markEnded)

/-! ## The output port (spec/43_io_adapter_commands.md R98) -/

/-- The sink sets `Out.ready`. -/
def setSinkReady (ready : Bool) (s : State) : State := { s with outReady := ready }

/-- `Out.push(f)`: the frame is appended to the sink's sequence in one transfer. -/
def pushFrame (f : Frame) (s : State) : State := { s with sink := s.sink ++ [f] }

/-! ## The codec port (spec/41_codec_port.md R74 to R77) -/

/-- The codec result an environment presents as a flag and bytes: an answer if there are 255 bytes
(spec/60_exceptions.md R114). -/
def codecAnswerOfBytes (ok : Bool) (bytes : List Byte) : CodecAnswer :=
  if h : bytes.length = 255 then .answer ok ⟨bytes.toArray, by rw [List.size_toArray, h]⟩
  else .malformed bytes

/-- `CODEC(cw)`, a function of the bound codec and the codeword alone (spec/41_codec_port.md R75): what is observed of this
codeword, or else what the OPEN function of the handle gives (log entry 4). Codewords are compared as lists of bytes, which
the kernel evaluates in one pass. -/
def callCodec (codec : CodecBinding) (cw : Codeword) : CodecAnswer :=
  match codec.observed.find? fun o => o.codeword.toList = cw.toList with
  | some o => codecAnswerOfBytes o.ok o.bytes
  | none => .answer (Config.codecFunction codec.handle cw).1 (Config.codecFunction codec.handle cw).2

/-- Record a call on the codec port. -/
def recordCall (index : BitVec 3) (cw : Codeword) (s : State) : State :=
  { s with codecCalls := s.codecCalls ++ [{ index := index, codeword := cw }] }

/-- A row of `CC` after the codec's `msg` is written to it: the first `len` bytes of the message, the rest as before.
`len` is CODEC_WRITE_LEN (spec/92_eei_decisions.md D11); at 255 the row is the message (spec/41_codec_port.md R77). -/
def writtenRow (len : Nat) (old msg : Codeword) : Codeword :=
  tabulate 255 fun p => if p.val < len then msg[p] else old[p]

end Sys2Proof.Machine
end

