-- ==== Sys2Proof/Machine/Commands.lean ====
section
/-!
DEFINITION. The host commands of spec/43_io_adapter_commands.md (R99 to R106): one meaning each. A command that the
current `state` does not accept (R100) raises IllegalCommand and does nothing else (R105).
-/

namespace Sys2Proof.Machine

/-- A command word turned away: `cmd_err` is set, the event IllegalCommand recorded, nothing else changes
(spec/43_io_adapter_commands.md R105). -/
def turnAway (w : Word) (s : State) : State := raiseEvent (.illegalCommand w) s

/-- Start a decode cycle from IDLE, in continuous mode or not (spec/43_io_adapter_commands.md R102, R103). -/
def startCycle (continuous : Bool) (s : State) : State :=
  s.withBlock { s.block with run := continuous, state := codeFetch }

/-- NOP: no state change, in every state (spec/43_io_adapter_commands.md R101). -/
def execNop (s : State) : Host.Outcome State Fault Refusal := .next s

/-- PROCESS_ONE: one decode cycle, accepted in IDLE only (spec/43_io_adapter_commands.md R102). -/
def execProcessOne (s : State) : Host.Outcome State Fault Refusal :=
  .next (if s.block.state = codeIdle then startCycle false s else turnAway 0x00000001#32 s)

/-- RUN: the continuous loop, accepted in IDLE only (spec/43_io_adapter_commands.md R103). -/
def execRun (s : State) : Host.Outcome State Fault Refusal :=
  .next (if s.block.state = codeIdle then startCycle true s else turnAway 0x00000002#32 s)

/-- CANCEL: no effect in IDLE, at once in FETCH, deferred to RELEASE while a frame is in progress, illegal in FATAL
(spec/43_io_adapter_commands.md R104; a reserved code accepts no command, log entry 10). -/
def execCancel (s : State) : Host.Outcome State Fault Refusal :=
  .next (
    if s.block.state = codeIdle then s
    else if s.block.state = codeFetch then
      s.withBlock { s.block with run := false, cancelPending := false, state := codeIdle }
    else if s.block.inProgress then s.withBlock { s.block with cancelPending := true }
    else turnAway 0x00000003#32 s)

/-- SET_INPUT: at once at a frame boundary, deferred to RELEASE while a frame is in progress, illegal in FATAL
(spec/43_io_adapter_commands.md R106; a reserved code accepts no command, log entry 10). -/
def execSetInput (src : BitVec 8) (s : State) : Host.Outcome State Fault Refusal :=
  .next (
    if s.block.atBoundary then s.withBlock { s.block with srcId := src }
    else if s.block.inProgress then s.withBlock { s.block with pendSrc := src, swapPending := true }
    else turnAway (setInputWord src) s)

end Sys2Proof.Machine
end

