-- ==== Sys2Proof/Machine/Datapath.lean ====
section
/-!
DEFINITION. The datapath functions of spec/40_interleave_translate.md: pure functions of their arguments and the
configuration tables (R63 to R68). DEINT and REINT alone call the two that fill a buffer.
-/

namespace Sys2Proof.Machine

/-- FWD_XLATE: `FWD[v]` (spec/40_interleave_translate.md R63). -/
def fwdXlate (c : Config) (v : Byte) : Byte := c.fwd[v.toNat]

/-- REV_XLATE: `REV[v]` (spec/40_interleave_translate.md R64). -/
def revXlate (c : Config) (v : Byte) : Byte := c.rev[v.toNat]

/-- DEINTERLEAVE: `CW'[i mod 5][i div 5] = FWD[payload[i]]` for every `i`, so `CW'[k][p] = FWD[payload[5p + k]]`
(spec/40_interleave_translate.md R65). -/
def deinterleave (c : Config) (payload : Frame) : Rows :=
  tabulate 5 fun k => tabulate 255 fun p => fwdXlate c payload[payloadIndex k p]

/-- DERANDOMIZE: `b XOR PRBS[i mod 255]` (spec/40_interleave_translate.md R66). -/
def derandomize (c : Config) (i : Fin 1275) (b : Byte) : Byte := b ^^^ c.prbs[prbsIndex i]

/-- REINTERLEAVE: `OUT'[i] = REV[CC[i mod 5][i div 5]] XOR PRBS[i mod 255]`, the reverse translation first
(spec/40_interleave_translate.md R67). -/
def reinterleave (c : Config) (cc : Rows) : Frame :=
  tabulate 1275 fun i => derandomize c i (revXlate c cc[codewordOf i][positionOf i])

end Sys2Proof.Machine
end

