-- ==== Sys2Proof/Machine/Orchestrator.lean ====
section
/-!
DEFINITION. The orchestrator's step rules of spec/42_orchestrator.md (R85 to R92) and the reserved step codes
(spec/30_encoding.md R60): one meaning each. A step whose guard is false is held and changes nothing (R83, log entry 2).
The steps that consult the configuration read it from the state, where boot put it.
-/

namespace Sys2Proof.Machine

/-! ## FETCH (spec/42_orchestrator.md R86) -/

/-- The unit is stored and counted, and DEINT is next. -/
def acquireUnit (u : RawUnit) (s : State) : State :=
  s.withBlock { s.block with
    inBuf := u, framesAttempted := s.block.framesAttempted + 1#32, state := codeDeint }

/-- FETCH, by the answer of the attached source. -/
def fetchStep (s : State) : State :=
  match poll s.sources s.block.srcId with
  | .wait => s
  | .ended => raiseEvent .inputExhausted s
  | .unit u => acquireUnit u s

/-! ## DEINT (spec/42_orchestrator.md R87) -/

/-- `CW` is filled from the payload, the codeword index starts at 0, and DECODE is next. -/
def deintStep (s : State) : State :=
  s.withBlock { s.block with
    cw := deinterleave s.config (payloadOf s.block.inBuf), cwIdx := 0#3, state := codeDecode }

/-! ## DECODE (spec/42_orchestrator.md R88) -/

/-- A codeword was corrected: its row of `CC` is written; after the last one REINT is next, else the next codeword. -/
def acceptCodeword (k : Fin 5) (msg : Codeword) (s : State) : State :=
  s.withBlock { s.block with
    cc := s.block.cc.set k (writtenRow s.config.codecWriteLen s.block.cc[k] msg)
    cwIdx := if s.block.cwIdx = 4#3 then s.block.cwIdx else s.block.cwIdx + 1#3
    state := if s.block.cwIdx = 4#3 then codeReint else s.block.state }

/-- One codec call for the codeword `cw_idx` names. A result of other than 255 bytes breaks the port contract and is refused
(spec/60_exceptions.md R114). -/
def decodeCodeword (s : State) : Host.Outcome State Fault Refusal :=
  match codewordIndex s.block.cwIdx with
  | none => .fault .badState
  | some k =>
    match callCodec s.config.codec s.block.cw[k] with
    | .malformed _ => .refused .portContract
    | .answer ok msg =>
      .next (
        let called := recordCall s.block.cwIdx s.block.cw[k] s
        if ok then acceptCodeword k msg called
        else raiseEvent (.uncorrectableCodeword s.block.cwIdx) called)

/-! ## REINT (spec/42_orchestrator.md R89) -/

/-- `OUT_BUF` is built from `CC`, and EMIT is next. -/
def reintStep (s : State) : State :=
  s.withBlock { s.block with outBuf := reinterleave s.config s.block.cc, state := codeEmit }

/-! ## EMIT (spec/42_orchestrator.md R90) -/

/-- If the sink is ready it receives a copy of `OUT_BUF` and RELEASE is next; if not the step is held. -/
def emitStep (s : State) : State :=
  if s.outReady then
    (pushFrame s.block.outBuf s).withBlock { s.block with
      pendKind := .ok, pendFail := 0#3, state := codeRelease }
  else s

/-! ## RELEASE (spec/42_orchestrator.md R91)

The three parts of the rule write different fields and read none that another writes, so that their order is free. -/

/-- The frame's outcome is counted and published. -/
def publishResult (b : Block) : Block :=
  match b.pendKind with
  | .ok => { b with framesOk := b.framesOk + 1#32, lastResult := resultOk }
  | .dropped => { b with framesDropped := b.framesDropped + 1#32, lastResult := resultDropped b.pendFail }

/-- A pending swap of the source is applied. -/
def applySwap (b : Block) : Block :=
  if b.swapPending then { b with srcId := b.pendSrc, swapPending := false } else b

/-- The cycle ends: back to IDLE if a cancellation is pending or the mode is single-cycle, else to FETCH. -/
def endCycle (b : Block) : Block :=
  if b.cancelPending || !b.run then { b with cancelPending := false, run := false, state := codeIdle }
  else { b with state := codeFetch }

/-- The unit leaves the source it was acquired from, and the block reports and ends the cycle. -/
def releaseStep (s : State) : State :=
  (s.withSources (releaseUnit s.sources s.block.srcId)).withBlock (endCycle (applySwap (publishResult s.block)))

/-! ## The meanings -/

/-- IDLE: the orchestrator has no step and keeps all state (spec/42_orchestrator.md R85, spec/60_exceptions.md R125). -/
def execIdle (s : State) : Host.Outcome State Fault Refusal := .next s

/-- FETCH: acquire the next input unit (spec/42_orchestrator.md R86). -/
def execFetch (s : State) : Host.Outcome State Fault Refusal := .next (fetchStep s)

/-- DEINT: skip the header and deinterleave (spec/42_orchestrator.md R87). -/
def execDeint (s : State) : Host.Outcome State Fault Refusal := .next (deintStep s)

/-- DECODE: one codec call (spec/42_orchestrator.md R88). -/
def execDecode (s : State) : Host.Outcome State Fault Refusal := decodeCodeword s

/-- REINT: reverse translate, derandomize and reinterleave (spec/42_orchestrator.md R89). -/
def execReint (s : State) : Host.Outcome State Fault Refusal := .next (reintStep s)

/-- EMIT: hand the frame to the sink (spec/42_orchestrator.md R90). -/
def execEmit (s : State) : Host.Outcome State Fault Refusal := .next (emitStep s)

/-- RELEASE: consume the unit, report, apply deferred requests (spec/42_orchestrator.md R91). -/
def execRelease (s : State) : Host.Outcome State Fault Refusal := .next (releaseStep s)

/-- FATAL: the orchestrator has no step; only reset leaves it (spec/42_orchestrator.md R92). -/
def execFatal (s : State) : Host.Outcome State Fault Refusal := .next s

/-- RESERVED_STEP: codes 8 to 15 have no meaning; the machine faults (spec/30_encoding.md R60). The state is not
consulted: the code alone selects this row. -/
def execReservedStep (_code : BitVec 4) (_s : State) : Host.Outcome State Fault Refusal := .fault .badState

end Sys2Proof.Machine
end

