-- ==== Sys2Proof/Machine/Dispatch.lean ====
section
/-!
DEFINITION. The meaning of every instruction: one arm per constructor, one direct call each.
-/

namespace Sys2Proof.Machine

def exec (i : Instr) (s : State) : Host.Outcome State Fault Refusal :=
  match i with
  | .nop => Sys2Proof.Machine.execNop s
  | .processOne => Sys2Proof.Machine.execProcessOne s
  | .run => Sys2Proof.Machine.execRun s
  | .cancel => Sys2Proof.Machine.execCancel s
  | .setInput src => Sys2Proof.Machine.execSetInput src s
  | .idle => Sys2Proof.Machine.execIdle s
  | .fetch => Sys2Proof.Machine.execFetch s
  | .deint => Sys2Proof.Machine.execDeint s
  | .decode => Sys2Proof.Machine.execDecode s
  | .reint => Sys2Proof.Machine.execReint s
  | .emit => Sys2Proof.Machine.execEmit s
  | .release => Sys2Proof.Machine.execRelease s
  | .fatal => Sys2Proof.Machine.execFatal s
  | .reservedStep code => Sys2Proof.Machine.execReservedStep code s

end Sys2Proof.Machine
end

