-- ==== Sys2Proof/Machine/HostPort.lean ====
section
/-!
DEFINITION. The host register window (spec/20_memory.md R35 to R40): which accesses are admitted, what a read returns,
and what a write to the window is.
-/

namespace Sys2Proof.Machine

/-- An access is admitted if it is 4 bytes wide at an aligned offset below 0x20 (spec/20_memory.md R37). -/
def admitted (offset n : Nat) : Bool := n = 4 && offset % 4 = 0 && offset < 0x20

/-- The value of the register at an admitted offset (spec/20_memory.md R35, R38). CMD at 0x00 and the reserved offsets
0x18 and 0x1C read 0. -/
def readRegister (b : Block) (offset : Nat) : Word :=
  match offset with
  | 0x04 => statusWord b
  | 0x08 => b.lastResult
  | 0x0C => b.framesAttempted
  | 0x10 => b.framesOk
  | 0x14 => b.framesDropped
  | _ => 0#32

/-- What a read of the block returns: the register, or 0 for a rejected access (spec/20_memory.md R37). -/
def readValue (b : Block) (offset n : Nat) : Word := if admitted offset n then readRegister b offset else 0#32

/-- The host receives a read value. -/
def returnToHost (v : Word) (s : State) : State := { s with hostReads := s.hostReads ++ [v] }

/-- A rejected access: `cmd_err` is set, the event HostAccessError recorded (spec/20_memory.md R37). -/
def rejectAccess (s : State) : State := raiseEvent .hostAccessError s

/-- `MemRead(offset, n)`: the value goes to the host; a rejected access sets `cmd_err`, an admitted one changes nothing of
the block (spec/20_memory.md R37, R40). -/
def hostRead (offset n : Nat) (s : State) : State :=
  if admitted offset n then returnToHost (readValue s.block offset n) s
  else rejectAccess (returnToHost (readValue s.block offset n) s)

/-- What a host write is: rejected, ignored (spec/20_memory.md R38), a command, or an illegal command word
(spec/43_io_adapter_commands.md R99). A rejected access is not decoded as a command (spec/60_exceptions.md R116). -/
inductive HostWrite where
  | rejected
  | ignored
  | command (i : Instr)
  | illegal (w : Word)
deriving DecidableEq, Repr

/-- `MemWrite(offset, n, v)`, sorted by what it is. -/
def classifyWrite (offset n : Nat) (v : Word) : HostWrite :=
  if admitted offset n then
    if offset = 0 then
      match decodeCommand v with
      | .ok i => .command i
      | .error _ => .illegal v
    else .ignored
  else .rejected

/-- The platform's view: the offset an address of a host's map has in the window at DEC_BASE, if it lies in it
(spec/20_memory.md R35). -/
def windowOffset (base addr : Nat) : Option Nat :=
  if base ≤ addr ∧ addr < base + 0x20 then some (addr - base) else none

/-- `MemRead(addr, n)` on a platform that places the window at DEC_BASE, as a move of the host. -/
def memReadAt (addr n : Nat) : Option Move := (windowOffset Config.decBase addr).map fun offset => .memRead offset n

/-- `MemWrite(addr, n, v)` on a platform that places the window at DEC_BASE, as a move of the host. -/
def memWriteAt (addr n : Nat) (v : Word) : Option Move :=
  (windowOffset Config.decBase addr).map fun offset => .memWrite offset n v

end Sys2Proof.Machine
end

