-- ==== Sys2Proof/Machine/Moves.lean ====
section
/-!
DEFINITION. One move of one agent (spec/20_memory.md R45): the orchestrator's turn, a host access, reset, or an event of the
environment.
-/

namespace Sys2Proof.Machine

/-- The orchestrator's turn: the step that `state` selects (spec/42_orchestrator.md R82). -/
def orchestratorTurn (s : State) : Host.Outcome State Fault Refusal := exec (decodeStep s.block.state) s

/-- A host write, in full: a command runs, anything else is ignored, rejected or turned away
(spec/20_memory.md R37, R38, spec/43_io_adapter_commands.md R99). -/
def hostWrite (offset n : Nat) (v : Word) (s : State) : Host.Outcome State Fault Refusal :=
  match classifyWrite offset n v with
  | .command i => exec i s
  | .illegal w => .next (turnAway w s)
  | .ignored => .next s
  | .rejected => .next (rejectAccess s)

/-- One move of one agent. -/
def makeMove (m : Move) (s : State) : Host.Outcome State Fault Refusal :=
  match m with
  | .orchestrator => orchestratorTurn s
  | .memWrite offset n v => hostWrite offset n v s
  | .memRead offset n => .next (hostRead offset n s)
  | .reset => .next (resetBlock s)
  | .deliver src bytes => deliverUnit src bytes s
  | .endStream src => .next (endStreamOf src s)
  | .sinkReady ready => .next (setSinkReady ready s)

end Sys2Proof.Machine
end

