-- ==== Sys2Proof/Machine/Step.lean ====
section
/-!
DEFINITION. One atomic transition (spec/20_memory.md R45): the next move of the agenda, or the orchestrator's turn when
none is left. And where step fetches its next instruction.
-/

namespace Sys2Proof.Machine

/-- One transition: the head of the agenda is taken off and made; on an empty agenda the orchestrator moves
(spec/42_orchestrator.md R82, log entry 1). -/
def step (s : State) : Host.Outcome State Fault Refusal :=
  match s.agenda with
  | [] => orchestratorTurn s
  | m :: rest => makeMove m (s.withAgenda rest)

/-- The state in which the very next step runs the instruction of the bits `w`: for a row of 32 bits, the host's write of
that word to CMD is the next move; for a step selector, `state` holds the code and the orchestrator moves next
(log entry 13). -/
def State.withFetchWord (s : State) (nbits w : Nat) : State :=
  if nbits ≤ 8 then
    (s.withBlock { s.block with state := BitVec.ofNat 4 w }).withAgenda (.orchestrator :: s.agenda)
  else s.withAgenda (.memWrite 0 4 (BitVec.ofNat 32 w) :: s.agenda)

end Sys2Proof.Machine
end

