-- ==== Sys2Proof/Machine/Boot.lean ====
section
/-!
DEFINITION. Before the block's rules hold (spec/70_reset_and_hazards.md R131): a raw configuration is checked and
installed, or refused (spec/00_scope.md R8, spec/60_exceptions.md R114), and then reset is applied.
-/

namespace Sys2Proof.Machine

/-- The configuration a raw one is, if it is well formed, or ConfigRefused (spec/60_exceptions.md R114). -/
def admitConfig (raw : RawConfig) : Except Refusal Config :=
  if h : raw.wf = true then
    .ok {
      toRawConfig := raw
      revUndoesFwd := (Bool.and_eq_true_iff.mp h).1
      fwdUndoesRev := (Bool.and_eq_true_iff.mp h).2 }
  else .error .configRefused

/-- Boot: the configuration is loaded, then reset is applied (spec/70_reset_and_hazards.md R131, 1 and 2). The machine holds
that configuration from then on, and every later step and reset uses it. Items 3 to 5 of that rule are the host's, and are
moves of the agenda. -/
def boot (raw : RawConfig) (sources : Vector InputStream 255) (ready : Bool) (agenda : List Move) :
    Host.Outcome State Fault Refusal :=
  match admitConfig raw with
  | .ok c => .next (State.powerOn c sources ready agenda)
  | .error r => .refused r

end Sys2Proof.Machine
end

