-- ==== Sys2Proof/Machine/HostProgram.lean ====
section
/-!
DEFINITION. Host programs (spec/30_encoding.md R61, R62): the lines of the host assembly, each one access of the window, and
the pseudo-operations as lines. A wait is as many reads of STATUS as the host makes until its condition holds, and that
number is the argument `reads` (log entry 15).
-/

namespace Sys2Proof.Machine

/-- The registers of the window by name (spec/20_memory.md R35). -/
inductive HostRegister where
  | cmd
  | status
  | lastResult
  | framesAttempted
  | framesOk
  | framesDropped
deriving DecidableEq, Repr

/-- The offset of a register in the window (spec/20_memory.md R35). -/
def registerOffset : HostRegister → Nat
  | .cmd => 0x00
  | .status => 0x04
  | .lastResult => 0x08
  | .framesAttempted => 0x0C
  | .framesOk => 0x10
  | .framesDropped => 0x14

/-- The host commands by mnemonic (spec/30_encoding.md R54). -/
inductive HostCommand where
  | nop
  | processOne
  | run
  | cancel
  | setInput (src : BitVec 8)
deriving DecidableEq, Repr

/-- The instruction a mnemonic names. -/
def commandInstr : HostCommand → Instr
  | .nop => .nop
  | .processOne => .processOne
  | .run => .run
  | .cancel => .cancel
  | .setInput src => .setInput src

/-- The word a mnemonic writes to CMD (spec/30_encoding.md R54). -/
def commandWord (command : HostCommand) : Word :=
  match encode (commandInstr command) with
  | .command w => w
  | .step _ => 0#32

/-- One line of a host program (spec/30_encoding.md R61). -/
inductive HostLine where
  | command (c : HostCommand)
  | read (r : HostRegister)
  | raw (w : Word)
deriving DecidableEq, Repr

/-- The access a line makes (spec/30_encoding.md R61). -/
def moveOfLine : HostLine → Move
  | .command command => .memWrite 0x00 4 (commandWord command)
  | .read r => .memRead (registerOffset r) 4
  | .raw w => .memWrite 0x00 4 w

/-- A pseudo-operation (spec/30_encoding.md R62). -/
inductive HostPseudo where
  | waitIdle
  | waitSwap
  | decodeOne
  | detach
  | stop
deriving DecidableEq, Repr

/-- The expansion of a pseudo-operation whose wait, if it has one, reads STATUS `reads` times (spec/30_encoding.md R62). -/
def expandPseudo (reads : Nat) : HostPseudo → List HostLine
  | .waitIdle => List.replicate reads (.read .status)
  | .waitSwap => List.replicate reads (.read .status)
  | .decodeOne => .command .processOne :: List.replicate reads (.read .status)
  | .detach => [.command (.setInput 0#8)]
  | .stop => .command .cancel :: List.replicate reads (.read .status)

/-- WAIT_IDLE ends at a STATUS whose STATE is IDLE or FATAL (spec/30_encoding.md R62). -/
def waitIdleOver (status : Word) : Bool :=
  status.extractLsb' 0 4 = codeIdle || status.extractLsb' 0 4 = codeFatal

/-- WAIT_SWAP ends at a STATUS whose SWAP_PENDING is 0 (spec/30_encoding.md R62). -/
def waitSwapOver (status : Word) : Bool := status.extractLsb' 9 1 = 0#1

end Sys2Proof.Machine
end

