-- ==== Sys2Proof/Safety.lean ====
section
/-!
DEFINITION. What counts as a safe run, in the words the statements use: the whole-frame reference decoder the step rules
are held to, and the properties every step keeps.
-/

namespace Sys2Proof.Machine

/-! ## The reference decoder: what a unit decodes to (spec/42_orchestrator.md R94) -/

/-- The codec corrects this codeword. -/
def correctable (c : Config) (cw : Codeword) : Bool :=
  match callCodec c.codec cw with
  | .answer ok _ => ok
  | .malformed _ => false

/-- What the codec makes of a codeword; meaningful where it is correctable. -/
def corrected (c : Config) (cw : Codeword) : Codeword :=
  match callCodec c.codec cw with
  | .answer _ msg => msg
  | .malformed _ => zeroBytes 255

/-- The codec presents 255 bytes for this codeword, as the port contract has it (spec/41_codec_port.md R74,
spec/60_exceptions.md R114). -/
def keepsPortContract (c : Config) (cw : Codeword) : Prop :=
  ∃ ok msg, callCodec c.codec cw = .answer ok msg

/-- The first codeword the codec cannot correct, if there is one (spec/41_codec_port.md R80). -/
def firstFailure (c : Config) (rows : Rows) : Option (Fin 5) :=
  (List.finRange 5).find? fun k => !correctable c rows[k]

/-- The five codewords of a unit. -/
def codewordsOf (c : Config) (u : RawUnit) : Rows := deinterleave c (payloadOf u)

/-- The frame a unit decodes to when all five codewords are correctable. -/
def decodedFrame (c : Config) (u : RawUnit) : Frame :=
  reinterleave c (tabulate 5 fun k => corrected c (codewordsOf c u)[k])

/-- The calls a cycle makes on the codec port up to and including codeword `k` (spec/41_codec_port.md R80). -/
def callsThrough (rows : Rows) (k : Fin 5) : List CodecCall :=
  ((List.finRange 5).filter fun j => j ≤ k).map fun j => { index := BitVec.ofNat 3 j.val, codeword := rows[j] }

/-! ## Who moves -/

/-- The next transition is the orchestrator's turn. -/
def orchestratorMoves (s : State) : Prop := s.agenda = [] ∨ ∃ rest, s.agenda = .orchestrator :: rest

/-- The next transition is a reset. -/
def resetMoves (s : State) : Prop := ∃ rest, s.agenda = .reset :: rest

/-- The state as the next transition finds it: its own move taken off the agenda. -/
def State.pop (s : State) : State := s.withAgenda s.agenda.tail

/-- The orchestrator is in DECODE, and the codec presents a result of another length for the codeword `cw_idx` names. -/
def meetsBadCodecResult (s : State) : Prop :=
  s.block.state = codeDecode ∧ ∃ k : Fin 5, s.block.cwIdx.toNat = k.val ∧
    ∃ bytes, callCodec s.config.codec s.block.cw[k] = .malformed bytes

/-- The illegal command words (spec/30_encoding.md R58). -/
def illegalWord (w : Word) : Prop :=
  5 ≤ (fieldOp w).toNat ∨ fieldRsv w ≠ 0 ∨ (fieldOp w ≠ 4#8 ∧ fieldArg w ≠ 0)

/-! ## What every step keeps -/

/-- The control fields are legal: the codes and indices the rules reach (spec/10_state.md R14, R15, R23), `fatal` tells
FATAL (R17), requests are pending only while a frame is in progress (spec/43_io_adapter_commands.md R107), and the
continuous mode is on only while the block works. -/
structure ControlLegal (b : Block) : Prop where
  stateCode : b.state.toNat ≤ 7
  cwIdxRange : b.cwIdx.toNat ≤ 4
  pendFailRange : b.pendFail.toNat ≤ 4
  fatalTellsState : b.fatal = true ↔ b.state = codeFatal
  swapInFrame : b.swapPending = true → b.inProgress = true
  cancelInFrame : b.cancelPending = true → b.inProgress = true
  runWorks : b.run = true → b.state ≠ codeIdle ∧ b.state ≠ codeFatal

/-- The counters balance, modulo 2^32 (spec/10_state.md R28). -/
structure CountersBalance (b : Block) : Prop where
  atBoundary : b.atBoundary = true → b.framesAttempted = b.framesOk + b.framesDropped
  inFrame : b.inProgress = true → b.framesAttempted = b.framesOk + b.framesDropped + 1#32

/-- LAST_RESULT holds one of the legal combinations (spec/10_state.md R26), and a latched failure index is 0 to 4. -/
structure ReportLegal (b : Block) : Prop where
  pendFailRange : b.pendFail.toNat ≤ 4
  cwIdxRange : b.cwIdx.toNat ≤ 4
  word : b.lastResult = 0x00000000#32 ∨ b.lastResult = 0x27DCFF01#32 ∨ b.lastResult = 0x00000003#32 ∨
    ∃ k : Fin 5, b.lastResult = 0x0004FF02#32 + BitVec.ofNat 32 (4 * k.val)

/-- While a frame is in progress, the unit being decoded is still the head unit of the attached source
(spec/43_io_adapter_commands.md R97, R108). -/
def FrameHeld (s : State) : Prop :=
  s.block.inProgress = true → poll s.sources s.block.srcId = .unit s.block.inBuf

/-- The rows corrected so far are this unit's: `CW` holds its codewords, and for every index below `n` the codec
corrected the codeword and `CC` holds the result. -/
def CorrectedBelow (c : Config) (b : Block) (n : Nat) : Prop :=
  b.cw = codewordsOf c b.inBuf ∧
  ∀ k : Fin 5, k.val < n → correctable c b.cw[k] = true ∧ b.cc[k] = corrected c b.cw[k]

/-- The buffers hold what the steps taken so far make of the unit in `IN_BUF` (spec/42_orchestrator.md R87 to R90), where the
codec's whole message is written (spec/41_codec_port.md R77). -/
structure FramePath (c : Config) (b : Block) : Prop where
  inDecode : b.state = codeDecode → CorrectedBelow c b b.cwIdx.toNat
  inReint : b.state = codeReint → CorrectedBelow c b 5
  inEmit : b.state = codeEmit → firstFailure c (codewordsOf c b.inBuf) = none ∧ b.outBuf = decodedFrame c b.inBuf
  inRelease : b.state = codeRelease →
    match firstFailure c (codewordsOf c b.inBuf) with
    | none => b.pendKind = .ok ∧ b.pendFail = 0#3
    | some k => b.pendKind = .dropped ∧ b.pendFail = BitVec.ofNat 3 k.val

/-- Every property at once: what a state of the machine must satisfy for the run to be as the spec describes it. -/
structure Safe (s : State) : Prop where
  control : ControlLegal s.block
  counters : CountersBalance s.block
  report : ReportLegal s.block
  held : FrameHeld s
  path : FramePath s.config s.block
  wholeMessages : s.config.codecWriteLen = 255

/-! ## States that differ in the header only -/

/-- The unit with its four header bytes replaced. -/
def withHeader (h : Vector Byte 4) (u : RawUnit) : RawUnit :=
  tabulate 1279 fun i => if hi : i.val < 4 then h[i.val] else u[i]

/-- The state with the header bytes of `IN_BUF` replaced. -/
def State.withHeader (h : Vector Byte 4) (s : State) : State :=
  s.withBlock { s.block with inBuf := Machine.withHeader h s.block.inBuf }

end Sys2Proof.Machine
end

