-- ==== Sys2Proof/Certificates/Slice0/Obligations.lean ====
section
/-!
DEFINITION. The statements for the provers. Each docstring names the rule of spec/ it formalises, or says that it is derived.
"Illegal" effects name the entry in the event record as well, which is the model's own field (log entry 12).
-/

open Sys2Proof Sys2Proof.Machine

/-! ## Encodings (spec/30_encoding.md) -/

/-- Decoding the encoding of a well-formed instruction gives it back, from its code and from the code's bytes, with every
operand at every value (derived from spec/30_encoding.md 1 to 4, and for the order of a command's bytes from
spec/20_memory.md R39). That a step selector has a form as one byte, with the code in its bits 3 to 0, is the model's choice
(log entry 11). -/
def Obligations.DecodeInvertsEncode : Prop :=
  ∀ i : Instr, i.wf = true → decode (encode i) = .ok i ∧ decodeBytes (bytesOfCode (encode i)) = .ok i

/-- Every code has one meaning: whatever code decodes to an instruction is that instruction's encoding, and the
instruction is well formed (derived from spec/30_encoding.md 1 to 4). -/
def Obligations.EncodeInvertsDecode : Prop :=
  ∀ (code : Code) (i : Instr), decode code = .ok i → i.wf = true ∧ encode i = code

/-- R58: which command words are illegal, and what a write of one does, in every state; and a legal word that the state does
not accept does the same. -/
def Obligations.IllegalWordsSetCmdErrOnly : Prop :=
  (∀ w : Word, illegalWord w ↔ ¬ ∃ i, decodeCommand w = .ok i) ∧
  (∀ (s : State) (w : Word) (rest : List Move), s.agenda = .memWrite 0 4 w :: rest →
    (illegalWord w ∨
      (w ∈ [0x00000001#32, 0x00000002#32] ∧ s.block.state ≠ codeIdle) ∨
      ((w = 0x00000003#32 ∨ ∃ src, w = setInputWord src) ∧ s.block.state = codeFatal)) →
    step s = .next { s with
      agenda := rest
      block := { s.block with cmdErr := true }
      events := s.events ++ [.illegalCommand w] })

/-- Words written out bit by bit from spec/30_encoding.md R51, R54, R55 decode to the instructions they stand for: one of
every command, and one of every kind of step code (derived from those tables). The last clause reads a step selector out of
the low bits of an 8-bit number, which is the model's choice (log entry 11). -/
def Obligations.WordsOfTheTablesDecode : Prop :=
  decode (.command 0b00000000000000000000000000000000#32) = .ok .nop ∧
  decode (.command 0b00000000000000000000000000000001#32) = .ok .processOne ∧
  decode (.command 0b00000000000000000000000000000010#32) = .ok .run ∧
  decode (.command 0b00000000000000000000000000000011#32) = .ok .cancel ∧
  decode (.command 0b00000000000000000000001100000100#32) = .ok (.setInput 3#8) ∧
  decode (.step 0b0011#4) = .ok .decode ∧
  decode (.step 0b1010#4) = .ok (.reservedStep 10#4) ∧
  decodeTableWord 32 0x00000304 = some (.setInput 3#8) ∧
  decodeTableWord 8 0x6 = some .release

/-- Byte `j` of the four bytes of a register word holds its bits `8 j + 7` to `8 j`, and the four bytes make the word
again (derived from spec/20_memory.md R39, whose sentence on mixed-width views is not part of it). -/
def Obligations.ByteLanesAreLittleEndian : Prop :=
  ∀ w : Word, ∃ b0 b1 b2 b3 : Byte, lanesOfWord w = [b0, b1, b2, b3] ∧ wordOfLanes b0 b1 b2 b3 = w ∧
    ∀ j : Fin 8, b0[j.val] = w[j.val] ∧ b1[j.val] = w[8 + j.val] ∧ b2[j.val] = w[16 + j.val] ∧ b3[j.val] = w[24 + j.val]

/-! ## A step runs the decoded instruction -/

/-- On the orchestrator's turn the step is the meaning of the instruction the decoder reads from `state`
(derived from spec/42_orchestrator.md R82; that the turn comes from the agenda is the model's choice, log entry 1). -/
def Obligations.OrchestratorRunsTheSelectedStep : Prop :=
  ∀ (s : State) (i : Instr), orchestratorMoves s → decode (.step s.block.state) = .ok i → step s = exec i s.pop

/-- When the next move is a 4-byte write to CMD of a word that decodes to an instruction, the step is that instruction's
meaning, with nothing around it but the move taken off the agenda (derived from spec/43_io_adapter_commands.md R99). -/
def Obligations.AWrittenCommandRuns : Prop :=
  ∀ (s : State) (w : Word) (rest : List Move) (i : Instr), s.agenda = .memWrite 0 4 w :: rest →
    decode (.command w) = .ok i → step s = exec i s.pop

/-! ## The host commands (spec/43_io_adapter_commands.md) -/

/-- R101: NOP runs in every state and changes nothing. -/
def Obligations.NopChangesNothing : Prop :=
  ∀ s : State, exec .nop s = .next s

/-- R102: PROCESS_ONE in IDLE starts one single-mode cycle; in any other state it is illegal, by its word. -/
def Obligations.ProcessOneStartsFromIdleOnly : Prop :=
  ∀ s : State,
    (s.block.state = codeIdle →
      exec .processOne s = .next { s with block := { s.block with run := false, state := codeFetch } }) ∧
    (s.block.state ≠ codeIdle →
      exec .processOne s = .next { s with
        block := { s.block with cmdErr := true }, events := s.events ++ [.illegalCommand 0x00000001#32] })

/-- R103: RUN in IDLE starts the continuous mode; in any other state it is illegal, by its word. -/
def Obligations.RunStartsFromIdleOnly : Prop :=
  ∀ s : State,
    (s.block.state = codeIdle →
      exec .run s = .next { s with block := { s.block with run := true, state := codeFetch } }) ∧
    (s.block.state ≠ codeIdle →
      exec .run s = .next { s with
        block := { s.block with cmdErr := true }, events := s.events ++ [.illegalCommand 0x00000002#32] })

/-- R104: CANCEL by state: no effect, at once, deferred, illegal. -/
def Obligations.CancelByState : Prop :=
  ∀ s : State,
    (s.block.state = codeIdle → exec .cancel s = .next s) ∧
    (s.block.state = codeFetch →
      exec .cancel s = .next { s with
        block := { s.block with run := false, cancelPending := false, state := codeIdle } }) ∧
    (s.block.inProgress = true →
      exec .cancel s = .next { s with block := { s.block with cancelPending := true } }) ∧
    (s.block.state = codeFatal →
      exec .cancel s = .next { s with
        block := { s.block with cmdErr := true }, events := s.events ++ [.illegalCommand 0x00000003#32] })

/-- R106: SET_INPUT by state, for every source id: at once, deferred, illegal. -/
def Obligations.SetInputByState : Prop :=
  ∀ (s : State) (src : BitVec 8),
    (s.block.atBoundary = true → exec (.setInput src) s = .next { s with block := { s.block with srcId := src } }) ∧
    (s.block.inProgress = true →
      exec (.setInput src) s = .next { s with block := { s.block with pendSrc := src, swapPending := true } }) ∧
    (s.block.state = codeFatal →
      exec (.setInput src) s = .next { s with
        block := { s.block with cmdErr := true }, events := s.events ++ [.illegalCommand (setInputWord src)] })

/-! ## The orchestrator's steps (spec/42_orchestrator.md) -/

/-- The block leaves IDLE only by PROCESS_ONE, RUN (to FETCH) or a reset (derived from spec/42_orchestrator.md R85). The spec
gives the orchestrator no step in IDLE; that its turn there is a next state with nothing changed is the model's choice
(log entry 2). -/
def Obligations.IdleIsLeftByStartCommandsOnly : Prop :=
  (∀ s : State, exec .idle s = .next s) ∧
  (∀ s t : State, s.block.state = codeIdle → step s = .next t → t.block.state ≠ codeIdle →
    resetMoves s ∨ (t.block.state = codeFetch ∧
      ∃ w rest, s.agenda = .memWrite 0 4 w :: rest ∧ (w = 0x00000001#32 ∨ w = 0x00000002#32)))

/-- FETCH by the answer of the attached source: END reports end of stream and stops, a unit is stored and counted and not
consumed, and id 0 answers END (derived from spec/42_orchestrator.md R86). On WAIT the spec holds the orchestrator without a
step; that its turn is then a next state with nothing changed is the model's choice (log entry 2). The equations say that no
other buffer, register, stream or port is changed. -/
def Obligations.FetchByTheSourcesAnswer : Prop :=
  (∀ sources : Vector InputStream 255, poll sources 0#8 = .ended) ∧
  ∀ s : State,
    (poll s.sources s.block.srcId = .wait → exec .fetch s = .next s) ∧
    (poll s.sources s.block.srcId = .ended →
      exec .fetch s = .next { s with
        block := { s.block with lastResult := 0x00000003#32, run := false, state := codeIdle }
        events := s.events ++ [.inputExhausted] }) ∧
    (∀ u, poll s.sources s.block.srcId = .unit u →
      exec .fetch s = .next { s with
        block := { s.block with
          inBuf := u, framesAttempted := s.block.framesAttempted + 1#32, state := codeDeint } })

/-- What a poll answers, from the queue and the ended flag of the stream of id `id`, which is stream number `id - 1` of the
list (derived from spec/43_io_adapter_commands.md R97, its first sentences). -/
def Obligations.PollAnswersFromTheQueue : Prop :=
  ∀ (sources : Vector InputStream 255) (id : BitVec 8) (st : InputStream), id ≠ 0#8 →
    sources[id.toNat - 1]? = some st →
    (∀ u rest, st.queue = u :: rest → poll sources id = .unit u) ∧
    (st.queue = [] → st.ended = true → poll sources id = .ended) ∧
    (st.queue = [] → st.ended = false → poll sources id = .wait)

/-- R87, R65: DEINT sends payload byte `i`, unit byte `4 + i`, through the forward table to codeword `i mod 5`, position
`i div 5`, sets the codeword index to 0 and moves to DECODE; nothing else changes. -/
def Obligations.DeintFillsTheCodewords : Prop :=
  ∀ s : State, ∃ cw : Rows,
    exec .deint s = .next { s with block := { s.block with cw := cw, cwIdx := 0#3, state := codeDecode } } ∧
    ∀ (i : Nat) (_ : i < 1275),
      cw[i % 5][i / 5] = s.config.fwd[s.block.inBuf[4 + i].toNat]

/-- DECODE on codeword `k` of 0 to 4 answers a next state after one codec call, whatever flag and 255 bytes the codec answers.
On success the 255 bytes of the message become row `k` of `CC`, and the next codeword follows, or REINT after the last; on
failure `CC` keeps its contents, the outcome is latched, UncorrectableCodeword is recorded and RELEASE follows. With `cw_idx`
above 4 it faults. Nothing else changes (derived from spec/42_orchestrator.md R88, spec/41_codec_port.md R76, R77). For another
CODEC_WRITE_LEN than 255 the row is as spec/92_eei_decisions.md D11 says (log entry 5). The record of codec calls and the event
record are the model's own (log entry 12). -/
def Obligations.DecodeMakesOneCodecCall : Prop :=
  ∀ s : State,
    (∀ (k : Fin 5) (ok : Bool) (msg : Codeword), s.block.cwIdx.toNat = k.val →
      callCodec s.config.codec s.block.cw[k] = .answer ok msg →
      let calls := s.codecCalls ++ [{ index := s.block.cwIdx, codeword := s.block.cw[k] }]
      let row := if s.config.codecWriteLen = 255 then msg else writtenRow s.config.codecWriteLen s.block.cc[k] msg
      exec .decode s = .next (
        if ok = true then
          { s with
            block := { s.block with
              cc := s.block.cc.set k row
              cwIdx := if k.val = 4 then 4#3 else BitVec.ofNat 3 (k.val + 1)
              state := if k.val = 4 then codeReint else s.block.state }
            codecCalls := calls }
        else
          { s with
            block := { s.block with pendKind := .dropped, pendFail := s.block.cwIdx, state := codeRelease }
            events := s.events ++ [.uncorrectableCodeword s.block.cwIdx]
            codecCalls := calls })) ∧
    (4 < s.block.cwIdx.toNat → exec .decode s = .fault .badState)

/-- R89, R67: REINT makes output byte `i` the reverse translation of byte `i div 5` of corrected codeword `i mod 5`, XORed
with sequence byte `i mod 255`, and moves to EMIT; nothing else changes. -/
def Obligations.ReintBuildsTheFrame : Prop :=
  ∀ s : State, ∃ f : Frame,
    exec .reint s = .next { s with block := { s.block with outBuf := f, state := codeEmit } } ∧
    ∀ (i : Nat) (_ : i < 1275),
      f[i] = s.config.rev[s.block.cc[i % 5][i / 5].toNat] ^^^ s.config.prbs[i % 255]

/-- EMIT pushes a copy of OUT_BUF and latches OK when the sink is ready (derived from spec/42_orchestrator.md R90). When it is
not, the spec holds the orchestrator without a step; that its turn is then a next state with nothing changed is the model's
choice (log entry 2). -/
def Obligations.EmitPushesWhenReady : Prop :=
  ∀ s : State,
    (s.outReady = true →
      exec .emit s = .next { s with
        sink := s.sink ++ [s.block.outBuf]
        block := { s.block with pendKind := .ok, pendFail := 0#3, state := codeRelease } }) ∧
    (s.outReady = false → exec .emit s = .next s)

/-- RELEASE, in every state: the unit leaves the source it came from, the outcome is counted and published, a pending swap is
applied after that, and the cycle ends in IDLE or FETCH; nothing else changes (derived from spec/42_orchestrator.md R91). The
spec describes a release where the source has a unit; that RELEASE answers the same where it has none, with nothing removed,
is the model's inference (log entry 14). -/
def Obligations.ReleaseReportsAndEndsTheCycle : Prop :=
  ∀ s : State,
    let b := s.block
    let stop : Bool := b.cancelPending || !b.run
    exec .release s = .next { s with
      sources := releaseUnit s.sources b.srcId
      block := { b with
        framesOk := if b.pendKind = .ok then b.framesOk + 1#32 else b.framesOk
        framesDropped := if b.pendKind = .ok then b.framesDropped else b.framesDropped + 1#32
        lastResult := if b.pendKind = .ok then resultWord 1#2 0#3 1279#11 1275#11 else resultWord 2#2 b.pendFail 1279#11 0#11
        srcId := if b.swapPending then b.pendSrc else b.srcId
        swapPending := false
        cancelPending := if stop then false else b.cancelPending
        run := if stop then false else b.run
        state := if stop then codeIdle else codeFetch } }

/-- Releasing a unit removes the head unit of that source and no other, and changes no other stream (derived from
spec/43_io_adapter_commands.md R97). -/
def Obligations.ReleaseRemovesTheHeadUnitOnly : Prop :=
  ∀ (sources : Vector InputStream 255) (id : BitVec 8) (u : RawUnit), poll sources id = .unit u →
    ∃ (k : Fin 255) (rest : List RawUnit), id.toNat = k.val + 1 ∧
      sources[k].queue = u :: rest ∧
      (releaseUnit sources id)[k] = { queue := rest, ended := sources[k].ended } ∧
      (∀ j : Fin 255, j ≠ k → (releaseUnit sources id)[j] = sources[j]) ∧
      (∀ id' : BitVec 8, id' ≠ id → poll (releaseUnit sources id) id' = poll sources id')

/-- Every command but NOP is illegal in FATAL, whatever else moves leaves the block in FATAL without a codec call, and a reset
enters the state the codec's construction decides, raising CodecConstructionFailure where that is FATAL (derived from
spec/42_orchestrator.md R92, spec/70_reset_and_hazards.md R127). The spec gives the orchestrator no step in FATAL; that its turn
there is a next state with nothing changed is the model's choice (log entry 2), and so is that the event record is kept across
reset (log entry 12). -/
def Obligations.FatalIsLeftByResetOnly : Prop :=
  (∀ s : State, exec .fatal s = .next s) ∧
  (∀ (s : State) (i : Instr), s.block.state = codeFatal → (i ∈ [.processOne, .run, .cancel] ∨ ∃ src, i = .setInput src) →
    ∃ w, encode i = .command w ∧
      exec i s = .next { s with
        block := { s.block with cmdErr := true }, events := s.events ++ [.illegalCommand w] }) ∧
  (∀ s t : State, s.block.state = codeFatal → step s = .next t → ¬ resetMoves s →
    t.block.state = codeFatal ∧ t.codecCalls = s.codecCalls) ∧
  (∀ s : State, resetMoves s → ∃ t, step s = .next t ∧
    t.block.state = (if s.config.codecConfigOk then codeIdle else codeFatal) ∧
    t.events = s.events ++ (if s.config.codecConfigOk then [] else [.codecConstructionFailure]))

/-- A block in FATAL works for no one: no codec call, no frame pushed, no counter or report changed, whatever moves, until
reset (derived from spec/42_orchestrator.md R92, spec/60_exceptions.md R111). -/
def Obligations.FatalBlockDoesNothing : Prop :=
  ∀ s t : State, s.block.state = codeFatal → step s = .next t → ¬ resetMoves s →
    t.codecCalls = s.codecCalls ∧ t.sink = s.sink ∧
    t.block = { s.block with cmdErr := t.block.cmdErr }

/-- R60: an instruction of a reserved step code faults with BadState on every state; a block whose `state` holds one faults
when the orchestrator moves; and no step writes one. -/
def Obligations.ReservedStepFaults : Prop :=
  (∀ (code : BitVec 4) (s : State), exec (.reservedStep code) s = .fault .badState) ∧
  (∀ s : State, orchestratorMoves s → 8 ≤ s.block.state.toNat → step s = .fault .badState) ∧
  (∀ s t : State, s.block.state.toNat < 8 → step s = .next t → t.block.state.toNat < 8)

/-- The fault BadState is raised exactly when the orchestrator moves on a reserved code, or in DECODE with `cw_idx` above 4;
there is no other fault (derived from spec/60_exceptions.md R114, its first row). The row speaks of a state that holds a
reserved code; that the fault is raised on the orchestrator's turn, and by no command or other move, is the model's inference
(log entry 10). -/
def Obligations.FaultsExactlyOnBadState : Prop :=
  ∀ s : State, (∃ f, step s = .fault f) ↔
    orchestratorMoves s ∧
      (8 ≤ s.block.state.toNat ∨ (s.block.state = codeDecode ∧ 4 < s.block.cwIdx.toNat))

/-- The two breaches of the port contract are refused, and nothing else is: DECODE refuses a codec result of other than 255
bytes, for every codec, codeword and state, and a step refuses exactly when the orchestrator meets such a result in DECODE or
a source presents bytes that are not one whole unit (derived from spec/60_exceptions.md R114, its third row,
spec/20_memory.md R44). That a codec is an answer for every codeword, some of them possibly malformed, is the model's choice
(log entry 4). -/
def Obligations.RefusesExactlyOnContractBreaches : Prop :=
  (∀ (ok : Bool) (bytes : List Byte), (∃ bytes', codecAnswerOfBytes ok bytes = .malformed bytes') ↔ bytes.length ≠ 255) ∧
  (∀ (s : State) (k : Fin 5) (bytes : List Byte), s.block.cwIdx.toNat = k.val →
    callCodec s.config.codec s.block.cw[k] = .malformed bytes → exec .decode s = .refused .portContract) ∧
  (∀ (s : State) (r : Refusal), step s = .refused r ↔
    r = .portContract ∧ ((orchestratorMoves s ∧ meetsBadCodecResult s) ∨
      ∃ src bytes rest, s.agenda = .deliver src bytes :: rest ∧ bytes.length ≠ 1279))

/-! ## The register window (spec/20_memory.md, spec/10_state.md) -/

/-- R25: every field of STATUS is the state element it shows, and the reserved bits read 0; a write to STATUS is ignored;
and the two reset values of the table. -/
def Obligations.StatusShowsTheState : Prop :=
  (∀ b : Block,
    let w := readRegister b 0x04
    w.extractLsb' 0 4 = b.state ∧ w.extractLsb' 4 3 = b.cwIdx ∧ w[7] = b.run ∧ w[8] = b.fatal ∧
    w[9] = b.swapPending ∧ w[10] = b.cancelPending ∧ w[11] = b.cmdErr ∧ w.extractLsb' 12 4 = 0#4 ∧
    w.extractLsb' 16 8 = b.srcId ∧ w.extractLsb' 24 8 = b.pendSrc) ∧
  (∀ (s : State) (v : Word) (rest : List Move), s.agenda = .memWrite 0x04 4 v :: rest →
    step s = .next { s with agenda := rest }) ∧
  (∀ c : Config, readRegister (Block.reset c) 0x04 = if c.codecConfigOk then 0x00000000#32 else 0x00000107#32)

/-- An admitted read returns the register of its offset to the host and changes nothing else: every offset of the window
(derived from spec/20_memory.md R35, R38, R40). -/
def Obligations.AdmittedReadsReturnTheRegister : Prop :=
  ∀ (s : State) (offset : Nat) (rest : List Move), s.agenda = .memRead offset 4 :: rest →
    ∀ v : Word,
      ((offset = 0x00 ∧ v = 0#32) ∨ (offset = 0x04 ∧ v = statusWord s.block) ∨ (offset = 0x08 ∧ v = s.block.lastResult) ∨
       (offset = 0x0C ∧ v = s.block.framesAttempted) ∨ (offset = 0x10 ∧ v = s.block.framesOk) ∨
       (offset = 0x14 ∧ v = s.block.framesDropped) ∨ (offset = 0x18 ∧ v = 0#32) ∨ (offset = 0x1C ∧ v = 0#32)) →
      step s = .next { s with agenda := rest, hostReads := s.hostReads ++ [v] }

/-- R37: any access that is not 4 bytes wide at an aligned offset below 0x20 is rejected: a read returns 0, a write changes
no register, and `cmd_err` is set. -/
def Obligations.RejectedAccessesSetCmdErrOnly : Prop :=
  ∀ (s : State) (offset n : Nat) (rest : List Move), ¬ (n = 4 ∧ offset % 4 = 0 ∧ offset < 0x20) →
    (s.agenda = .memRead offset n :: rest →
      step s = .next { s with
        agenda := rest, hostReads := s.hostReads ++ [0#32]
        block := { s.block with cmdErr := true }, events := s.events ++ [.hostAccessError] }) ∧
    (∀ v, s.agenda = .memWrite offset n v :: rest →
      step s = .next { s with
        agenda := rest
        block := { s.block with cmdErr := true }, events := s.events ++ [.hostAccessError] })

/-- R38: admitted reads of the reserved offsets and of CMD return 0, and admitted writes to any offset but CMD's are ignored
and do not set `cmd_err`. -/
def Obligations.IgnoredWritesChangeNothing : Prop :=
  (∀ b : Block, readValue b 0x18 4 = 0#32 ∧ readValue b 0x1C 4 = 0#32 ∧ readValue b 0x00 4 = 0#32) ∧
  (∀ (s : State) (offset : Nat) (v : Word) (rest : List Move), offset ∈ [0x04, 0x08, 0x0C, 0x10, 0x14, 0x18, 0x1C] →
    s.agenda = .memWrite offset 4 v :: rest → step s = .next { s with agenda := rest })

/-! ## Reset and boot (spec/70_reset_and_hazards.md, spec/00_scope.md) -/

/-- What reset leaves in every element of the block, for either value of CODEC_CONFIG_OK of the machine's own configuration,
as one transition, whatever the state before; the configuration, the streams and the sink are not touched (derived from
spec/70_reset_and_hazards.md R127, R129). That the moves to come and the model's own records are kept is the model's choice
(log entries 1 and 12), and so is that the configuration stands in the state (log entry 22). -/
def Obligations.ResetClearsTheBlock : Prop :=
  ∀ (s : State) (rest : List Move), s.agenda = .reset :: rest →
    ∃ t, step s = .next t ∧
      t.block = {
        state := if s.config.codecConfigOk then 0#4 else 7#4
        cwIdx := 0#3, run := false, fatal := !s.config.codecConfigOk
        swapPending := false, cancelPending := false, cmdErr := false
        srcId := 0#8, pendSrc := 0#8, pendKind := .ok, pendFail := 0#3, lastResult := 0#32
        framesAttempted := 0#32, framesOk := 0#32, framesDropped := 0#32
        inBuf := Vector.replicate 1279 0#8
        cw := Vector.replicate 5 (Vector.replicate 255 0#8)
        cc := Vector.replicate 5 (Vector.replicate 255 0#8)
        outBuf := Vector.replicate 1275 0#8 } ∧
      t.events = s.events ++ (if s.config.codecConfigOk then [] else [.codecConstructionFailure]) ∧ t.config = s.config ∧
      t.sources = s.sources ∧ t.sink = s.sink ∧ t.outReady = s.outReady ∧ t.agenda = rest ∧
      t.hostReads = s.hostReads ∧ t.codecCalls = s.codecCalls

/-- The machine right after reset is the block of R127 with the events reset raises (spec/70_reset_and_hazards.md R128;
derived). That the state holds the configuration is the model's choice (log entry 22). That the sink and the model's records
start empty is the model's choice too (log entry 8) and is not stated. -/
def Obligations.PowerOnIsAReset : Prop :=
  State.reset.config = Config.installed ∧ State.reset.block = Block.reset Config.installed ∧
  State.reset.events = (if Config.codecConstructed then [] else [.codecConstructionFailure]) ∧
  statusWord State.reset.block = (if Config.codecConstructed then 0x00000000#32 else 0x00000107#32)

/-- A raw configuration is loaded exactly when its tables undo each other on every byte, and any other is refused by
ConfigRefused; the block of the booted machine is then reset, and its tables translate as the given ones, FWD being a
permutation (derived from spec/00_scope.md R8, spec/70_reset_and_hazards.md R131, items 1 and 2). That the booted machine holds
just that configuration, in all its parts, in its state is the model's choice (log entry 22). -/
def Obligations.ConfigurationsAreCheckedAtBoot : Prop :=
  ∀ (raw : RawConfig) (sources : Vector InputStream 255) (ready : Bool) (agenda : List Move),
    ((∀ v : Byte, raw.rev[raw.fwd[v.toNat].toNat] = v ∧ raw.fwd[raw.rev[v.toNat].toNat] = v) →
      ∃ t, boot raw sources ready agenda = .next t ∧
        t.config.toRawConfig = raw ∧ t.block = Block.reset t.config ∧
        t.sources = sources ∧ t.outReady = ready ∧ t.agenda = agenda ∧
        (Function.Bijective fun v : Byte => raw.fwd[v.toNat]) ∧
        (∀ v : Byte, fwdXlate t.config v = raw.fwd[v.toNat] ∧ revXlate t.config v = raw.rev[v.toNat])) ∧
    (¬ (∀ v : Byte, raw.rev[raw.fwd[v.toNat].toNat] = v ∧ raw.fwd[raw.rev[v.toNat].toNat] = v) →
      boot raw sources ready agenda = .refused .configRefused)

/-! ## The datapath (spec/40_interleave_translate.md), for every configuration -/

/-- R69: the stride and its inverse undo each other, for every buffer and every five rows. -/
def Obligations.StrideRoundTrip : Prop :=
  (∀ b : Frame, unstride (stride b) = b) ∧ (∀ rows : Rows, stride (unstride rows) = rows)

/-- R70: the tables undo each other on every byte, in either order. -/
def Obligations.TablesUndoEachOther : Prop :=
  ∀ (c : Config) (v : Byte), revXlate c (fwdXlate c v) = v ∧ fwdXlate c (revXlate c v) = v

/-- R71: derandomising twice at one position gives the byte back. -/
def Obligations.DerandomizeIsAnInvolution : Prop :=
  ∀ (c : Config) (i : Fin 1275) (b : Byte), derandomize c i (derandomize c i b) = b

/-- R66: the derandomiser's index is the output position modulo 255, whatever codeword the byte belongs to; in particular
it restarts every 255 positions. -/
def Obligations.DerandomizeCyclesOverTheFrame : Prop :=
  ∀ (c : Config) (i : Fin 1275) (b : Byte),
    derandomize c i b = b ^^^ c.prbs[i.val % 255]'(by omega) ∧
    (∀ j : Fin 1275, j.val = i.val + 255 → derandomize c j b = derandomize c i b)

/-- If the codec returns every codeword of the payload unchanged, the frame is the payload XORed with the sequence; and
for the all-zero payload it is the sequence, over and over (derived from spec/40_interleave_translate.md R72, a rule the spec
marks as derived). -/
def Obligations.PassThroughIdentity : Prop :=
  ∀ (c : Config) (payload : Frame),
    (∀ (i : Nat) (_ : i < 1275),
      (reinterleave c (deinterleave c payload))[i] = payload[i] ^^^ c.prbs[i % 255]) ∧
    (payload = zeroBytes 1275 →
      ∀ (i : Nat) (_ : i < 1275), (reinterleave c (deinterleave c payload))[i] = c.prbs[i % 255])

/-- Every byte of the five rows DEINTERLEAVE fills comes from one payload byte, and every payload byte goes to one place:
two payloads with equal codewords are equal (derived from spec/40_interleave_translate.md R65). -/
def Obligations.DeinterleaveLosesNothing : Prop :=
  ∀ (c : Config) (p q : Frame), deinterleave c p = deinterleave c q → p = q

/-- What a message of CODEC_WRITE_LEN bytes leaves in its row: at 255 the whole message, below that the first bytes of the
message and the old tail (derived from spec/92_eei_decisions.md D11, spec/41_codec_port.md R77). -/
def Obligations.CodecWriteLengthDecidesTheRow : Prop :=
  (∀ old msg : Codeword, writtenRow 255 old msg = msg) ∧ (∀ old msg : Codeword, writtenRow 0 old msg = old) ∧
  ∀ (len : Nat) (old msg : Codeword) (p : Nat) (_ : p < 255),
    (writtenRow len old msg)[p] = if p < len then msg[p] else old[p]

/-! ## Properties of every step, from every state -/

/-- Every step keeps the control fields legal: the step codes and indices the rules reach, FATAL told by its flag, requests
pending only in a frame, the continuous mode only while working (derived from spec/10_state.md R14 to R19,
spec/43_io_adapter_commands.md R107). -/
def Obligations.StepsKeepControlLegal : Prop :=
  ∀ s t : State, ControlLegal s.block → step s = .next t → ControlLegal t.block

/-- Every step keeps the counters balanced, modulo 2^32 (derived from spec/10_state.md R28, which the spec marks as
derived). -/
def Obligations.StepsKeepCountersBalanced : Prop :=
  ∀ s t : State, CountersBalance s.block → step s = .next t → CountersBalance t.block

/-- Every step keeps LAST_RESULT one of the words of the legal combinations (derived from spec/10_state.md R26,
spec/95_test_vectors.md 3). -/
def Obligations.StepsKeepReportsLegal : Prop :=
  ∀ s t : State, ReportLegal s.block → step s = .next t → ReportLegal t.block

/-- Every step keeps the unit of the frame in progress at the head of the attached source, until RELEASE takes it from there
(derived from spec/43_io_adapter_commands.md R97, R108). -/
def Obligations.StepsKeepTheFrameHeld : Prop :=
  ∀ s t : State, FrameHeld s → step s = .next t → FrameHeld t

/-- Every step keeps the buffers what the steps so far make of the unit in IN_BUF (derived from spec/42_orchestrator.md R87
to R90, spec/10_state.md R31), where the codec's whole message is written (spec/41_codec_port.md R77). -/
def Obligations.StepsKeepTheFramePath : Prop :=
  ∀ s t : State, s.config.codecWriteLen = 255 → FramePath s.config s.block → step s = .next t →
    FramePath t.config t.block

/-- The machine right after reset has every one of these properties, and so has the state after a reset at any time, under any
configuration that writes the codec's whole message. -/
def Obligations.ResetIsSafe : Prop :=
  Safe State.reset ∧ ∀ s : State, s.config.codecWriteLen = 255 → Safe (resetBlock s)

/-- Every step from a safe state gives a safe state, and never faults: the whole invariant of the machine. -/
def Obligations.StepsKeepSafety : Prop :=
  ∀ s : State, Safe s → (∀ t, step s = .next t → Safe t) ∧ ∀ f, step s ≠ .fault f

/-- Nothing reaches the sink but whole decoded frames: a step leaves the sink as it was, or the orchestrator moves in EMIT
and the sink gains the one frame that the head unit of the attached source decodes to, all five of whose codewords are
correctable (derived from spec/42_orchestrator.md R94, spec/43_io_adapter_commands.md R108). -/
def Obligations.TheSinkGainsDecodedUnitsOnly : Prop :=
  ∀ s t : State, FrameHeld s → FramePath s.config s.block → step s = .next t →
    t.sink = s.sink ∨
    (orchestratorMoves s ∧ s.block.state = codeEmit ∧ ∃ u, poll s.sources s.block.srcId = .unit u ∧
      firstFailure s.config (codewordsOf s.config u) = none ∧
      t.sink = s.sink ++ [decodedFrame s.config u])

/-- `cmd_err` is set exactly where the event of an illegal command or of a rejected access is recorded, and stays set until
reset (derived from spec/10_state.md R20, spec/60_exceptions.md R110). -/
def Obligations.CmdErrIsSticky : Prop :=
  ∀ s t : State, step s = .next t →
    (s.block.cmdErr = true → ¬ resetMoves s → t.block.cmdErr = true) ∧
    (s.block.cmdErr = false → t.block.cmdErr = true →
      ∃ e, t.events = s.events ++ [e] ∧ (e = .hostAccessError ∨ ∃ w, e = .illegalCommand w)) ∧
    (∀ e, t.events = s.events ++ [e] → (e = .hostAccessError ∨ ∃ w, e = .illegalCommand w) → t.block.cmdErr = true)

/-- The attached source is replaced at a frame boundary, in RELEASE, or by reset, never in DEINT, DECODE, REINT or EMIT
(derived from spec/42_orchestrator.md R84, spec/20_memory.md R47). -/
def Obligations.SourceIsReplacedAtBoundariesOnly : Prop :=
  ∀ s t : State, step s = .next t → t.block.srcId ≠ s.block.srcId → ¬ resetMoves s →
    s.block.atBoundary = true ∨ (s.block.state = codeRelease ∧ orchestratorMoves s ∧ s.block.swapPending = true ∧
      t.block.srcId = s.block.pendSrc)

/-- While the sink is not ready the block stays in EMIT and pushes nothing, whatever moves, until reset or the sink's
readiness; no CANCEL passes it (derived from spec/70_reset_and_hazards.md R138, which the spec marks as derived). -/
def Obligations.BackpressureHoldsEmit : Prop :=
  ∀ s t : State, s.block.state = codeEmit → s.outReady = false → step s = .next t → ¬ resetMoves s →
    t.block.state = codeEmit ∧ t.sink = s.sink ∧ t.block.outBuf = s.block.outBuf

/-- The reports and counters change in these steps only: FRAMES_ATTEMPTED by one when FETCH acquires a unit; FRAMES_OK or
FRAMES_DROPPED by one, with LAST_RESULT, in RELEASE; LAST_RESULT at END in FETCH; all of them by reset (derived from
spec/10_state.md R26, R27, spec/42_orchestrator.md R86, R91). -/
def Obligations.ReportsChangeInFetchAndReleaseOnly : Prop :=
  ∀ s t : State, step s = .next t → ¬ resetMoves s →
    (t.block.framesAttempted = s.block.framesAttempted ∧ t.block.framesOk = s.block.framesOk ∧
      t.block.framesDropped = s.block.framesDropped ∧ t.block.lastResult = s.block.lastResult) ∨
    (orchestratorMoves s ∧ s.block.state = codeFetch ∧
      ((t.block.framesAttempted = s.block.framesAttempted + 1#32 ∧ t.block.lastResult = s.block.lastResult) ∨
       (t.block.framesAttempted = s.block.framesAttempted ∧ t.block.lastResult = resultEos)) ∧
      t.block.framesOk = s.block.framesOk ∧ t.block.framesDropped = s.block.framesDropped) ∨
    (orchestratorMoves s ∧ s.block.state = codeRelease ∧ t.block.framesAttempted = s.block.framesAttempted ∧
      ((t.block.framesOk = s.block.framesOk + 1#32 ∧ t.block.framesDropped = s.block.framesDropped ∧
          t.block.lastResult = resultOk) ∨
       (t.block.framesOk = s.block.framesOk ∧ t.block.framesDropped = s.block.framesDropped + 1#32 ∧
          t.block.lastResult = resultDropped s.block.pendFail)))

/-- One transition raises at most one event, and events are only ever added to the record; so a rejected access is never
an illegal command as well (derived from spec/60_exceptions.md R116). That a reset keeps the record too, adding to it what
reset raises, is the model's choice (log entry 12); R116 has reset clear all state, and the record is no state of the block. -/
def Obligations.AtMostOneEventAStep : Prop :=
  ∀ s t : State, step s = .next t → t.events = s.events ∨ ∃ e, t.events = s.events ++ [e]

/-- The header bytes of the unit in IN_BUF influence nothing: whatever they are, the step goes the same way, and the states
after it agree but for the header bytes of IN_BUF (derived from spec/10_state.md R29, spec/93_implementation_defined.md I7). -/
def Obligations.HeaderBytesInfluenceNothing : Prop :=
  ∀ (s : State) (h : Vector Byte 4),
    (∀ t, step s = .next t → ∃ h', step (s.withHeader h) = .next (t.withHeader h')) ∧
    (∀ f, step s = .fault f → step (s.withHeader h) = .fault f) ∧
    (∀ r, step s = .refused r → step (s.withHeader h) = .refused r)

/-! ## Whole decode cycles -/

/-- From FETCH with a unit at the attached source, a ready sink, a codec that keeps the port contract on the unit's codewords
and whose whole message is written (spec/41_codec_port.md R74, R77), and only the orchestrator moving, a cycle whose
codewords are all correctable takes 10 steps, pushes exactly the decoded frame and calls the codec for codewords 0 to 4 in
order; a cycle whose first uncorrectable codeword is `k` takes `k + 4` steps, pushes nothing and calls the codec for codewords
0 to `k` only. In both cases the one unit leaves its source and the cycle ends at a frame boundary: in FETCH if the
continuous mode is on and no cancellation was pending, else in IDLE (derived from spec/42_orchestrator.md R93, R94,
spec/41_codec_port.md R80; that only the orchestrator moves on an empty agenda is the model's choice, log entry 1). -/
def Obligations.ACycleDecodesOrDropsItsUnit : Prop :=
  ∀ (s : State) (u : RawUnit), s.agenda = [] → s.block.state = codeFetch → s.outReady = true →
    poll s.sources s.block.srcId = .unit u → s.config.codecWriteLen = 255 →
    (∀ k : Fin 5, keepsPortContract s.config (codewordsOf s.config u)[k]) →
    let rows := codewordsOf s.config u
    let next := if s.block.cancelPending || !s.block.run then codeIdle else codeFetch
    match firstFailure s.config rows with
    | none => ∃ t : State, Host.Core.run Sys2Proof.core 10 s = .next t ∧
        t.sink = s.sink ++ [decodedFrame s.config u] ∧
        t.codecCalls = s.codecCalls ++ callsThrough rows 4 ∧
        t.sources = releaseUnit s.sources s.block.srcId ∧ t.block.state = next ∧
        t.block.framesAttempted = s.block.framesAttempted + 1#32 ∧ t.block.framesOk = s.block.framesOk + 1#32 ∧
        t.block.framesDropped = s.block.framesDropped ∧ t.block.lastResult = 0x27DCFF01#32
    | some k => ∃ t : State, Host.Core.run Sys2Proof.core (k.val + 4) s = .next t ∧
        t.sink = s.sink ∧
        t.codecCalls = s.codecCalls ++ callsThrough rows k ∧
        t.sources = releaseUnit s.sources s.block.srcId ∧ t.block.state = next ∧
        t.block.framesAttempted = s.block.framesAttempted + 1#32 ∧ t.block.framesOk = s.block.framesOk ∧
        t.block.framesDropped = s.block.framesDropped + 1#32 ∧
        t.block.lastResult = 0x0004FF02#32 + BitVec.ofNat 32 (4 * k.val)

/-- An end-of-stream cycle is one FETCH step, and it leaves every buffer, stream and the sink as they were and stops the
block (derived from spec/42_orchestrator.md R86, R93). -/
def Obligations.AnEndOfStreamCycleIsOneStep : Prop :=
  ∀ s : State, orchestratorMoves s → s.block.state = codeFetch → poll s.sources s.block.srcId = .ended →
    ∃ t, step s = .next t ∧ t.block.state = codeIdle ∧ t.block.run = false ∧ t.block.lastResult = 0x00000003#32 ∧
      t.block.inBuf = s.block.inBuf ∧ t.block.cw = s.block.cw ∧ t.block.cc = s.block.cc ∧
      t.block.outBuf = s.block.outBuf ∧ t.sources = s.sources ∧ t.sink = s.sink

/-! ## Host programs (spec/30_encoding.md R61, R62) -/

/-- Every command line of the host assembly is the write to CMD of the word R54 gives it, which decodes to its
instruction; the words of R54 are written out (derived from spec/30_encoding.md R54, R61). -/
def Obligations.AssemblyLinesWriteTheirWords : Prop :=
  commandWord .nop = 0x00000000#32 ∧ commandWord .processOne = 0x00000001#32 ∧ commandWord .run = 0x00000002#32 ∧
  commandWord .cancel = 0x00000003#32 ∧
  (∀ src : BitVec 8, commandWord (.setInput src) = (0x00000004#32 ||| (src.setWidth 32 <<< 8))) ∧
  (∀ command : HostCommand, decodeCommand (commandWord command) = .ok (commandInstr command)) ∧
  (∀ command : HostCommand, moveOfLine (.command command) = .memWrite 0 4 (commandWord command))

/-! ## What moves, and what does not -/

/-- The moves of the environment: a whole unit joins the tail of its stream if that has not ended, the end of a stream marks
that stream ended, and the sink sets its readiness; everything else stays as it was (derived from
spec/43_io_adapter_commands.md R96, R98). That a unit for an ended stream, and a unit or an end for source id 0, change nothing
is the model's inference (log entry 9). -/
def Obligations.EnvironmentMovesChangeTheirPortOnly : Prop :=
  (∀ (s : State) (src : BitVec 8) (u : RawUnit) (rest : List Move), s.agenda = .deliver src u.toList :: rest →
    ∃ sources, step s = .next { s with agenda := rest, sources := sources } ∧
      ∀ k : Fin 255, sources[k] =
        if src.toNat = k.val + 1 ∧ s.sources[k].ended = false then
          { s.sources[k] with queue := s.sources[k].queue ++ [u] }
        else s.sources[k]) ∧
  (∀ (s : State) (src : BitVec 8) (rest : List Move), s.agenda = .endStream src :: rest →
    ∃ sources, step s = .next { s with agenda := rest, sources := sources } ∧
      ∀ k : Fin 255, sources[k] =
        if src.toNat = k.val + 1 then { s.sources[k] with ended := true } else s.sources[k]) ∧
  (∀ (s : State) (ready : Bool) (rest : List Move), s.agenda = .sinkReady ready :: rest →
    step s = .next { s with agenda := rest, outReady := ready })

/-- Neither a cancellation nor a swap takes effect in DEINT, DECODE, REINT or EMIT: short of a reset, whatever moves while a
frame is in progress leaves it in progress with the continuous mode, the source and every pending request as they were,
unless it is the orchestrator's move in RELEASE (derived from spec/42_orchestrator.md R84). -/
def Obligations.OnlyReleaseEndsAFrame : Prop :=
  ∀ s t : State, s.block.inProgress = true → step s = .next t → ¬ resetMoves s →
    (orchestratorMoves s ∧ s.block.state = codeRelease) ∨
    (t.block.inProgress = true ∧ t.block.run = s.block.run ∧ t.block.srcId = s.block.srcId ∧
      (s.block.cancelPending = true → t.block.cancelPending = true) ∧
      (s.block.swapPending = true → t.block.swapPending = true))

/-- R137: nothing changes the configuration: every step, a reset among them, leaves it as it was. -/
def Obligations.StepsKeepTheConfiguration : Prop :=
  ∀ s t : State, step s = .next t → t.config = s.config
end

