-- ==== Sys2Proof/Laws/Datapath.lean ====
section
/-!
SUPPORT. The elements of every buffer the datapath builds, and the arithmetic of its index maps
(spec/30_encoding.md R57, spec/40_interleave_translate.md R63 to R67).
-/

namespace Sys2Proof.Machine

@[simp] theorem codewordOf_payloadIndex (k : Fin 5) (p : Fin 255) : codewordOf (payloadIndex k p) = k := by
  ext; simp [codewordOf, payloadIndex]

@[simp] theorem positionOf_payloadIndex (k : Fin 5) (p : Fin 255) : positionOf (payloadIndex k p) = p := by
  ext; simp [positionOf, payloadIndex]; omega

@[simp] theorem payloadIndex_codewordOf_positionOf (i : Fin 1275) : payloadIndex (codewordOf i) (positionOf i) = i := by
  ext; simp [codewordOf, positionOf, payloadIndex]; omega

theorem payloadOf_get (u : RawUnit) (i : Fin 1275) : (payloadOf u)[i] = u[unitIndex i] := by
  simp [payloadOf]

theorem stride_get (b : Frame) (k : Fin 5) (p : Fin 255) : (stride b)[k][p] = b[payloadIndex k p] := by
  simp [stride]

theorem unstride_get (rows : Rows) (i : Fin 1275) : (unstride rows)[i] = rows[codewordOf i][positionOf i] := by
  simp [unstride]

theorem deinterleave_get (c : Config) (b : Frame) (k : Fin 5) (p : Fin 255) :
    (deinterleave c b)[k][p] = fwdXlate c b[payloadIndex k p] := by
  simp [deinterleave]

theorem reinterleave_get (c : Config) (cc : Rows) (i : Fin 1275) :
    (reinterleave c cc)[i] = revXlate c cc[codewordOf i][positionOf i] ^^^ c.prbs[prbsIndex i] := by
  simp [reinterleave, derandomize]

/-- A table that undoes another one does so on every byte. -/
theorem tableUndoes_get {g f : Vector Byte 256} (h : tableUndoes g f = true) (v : Byte) : g[f[v.toNat].toNat] = v :=
  BitVec.eq_of_toNat_eq (of_decide_eq_true h ⟨v.toNat, v.isLt⟩)

/-- The reverse table undoes the forward table (spec/00_scope.md R8). -/
@[simp] theorem revXlate_fwdXlate (c : Config) (v : Byte) : revXlate c (fwdXlate c v) = v :=
  tableUndoes_get c.revUndoesFwd v

/-- The forward table undoes the reverse table (spec/00_scope.md R8). -/
@[simp] theorem fwdXlate_revXlate (c : Config) (v : Byte) : fwdXlate c (revXlate c v) = v :=
  tableUndoes_get c.fwdUndoesRev v

end Sys2Proof.Machine
end

