-- ==== Sys2Proof/Laws/PerInstr.lean ====
section
/-!
SUPPORT. Statements made for every instruction, one lemma per constructor: the code the encoder gives an instruction agrees
with the match and mask of its row of spec/opcode_table.json.
-/

namespace Sys2Proof.Laws.EncodingMatchesTable

/-- The mask and the match of a row, by its format. -/
inductive TableRow where
  | cmd (mask pattern : BitVec 32)
  | step (mask pattern : BitVec 4)
deriving DecidableEq, Repr

/-- The row of every instruction, copied from spec/opcode_table.json. -/
def tableRow : Instr → TableRow
  | .nop => .cmd 0xFFFFFFFF#32 0x00000000#32
  | .processOne => .cmd 0xFFFFFFFF#32 0x00000001#32
  | .run => .cmd 0xFFFFFFFF#32 0x00000002#32
  | .cancel => .cmd 0xFFFFFFFF#32 0x00000003#32
  | .setInput _ => .cmd 0xFFFF00FF#32 0x00000004#32
  | .idle => .step 0xF#4 0x0#4
  | .fetch => .step 0xF#4 0x1#4
  | .deint => .step 0xF#4 0x2#4
  | .decode => .step 0xF#4 0x3#4
  | .reint => .step 0xF#4 0x4#4
  | .emit => .step 0xF#4 0x5#4
  | .release => .step 0xF#4 0x6#4
  | .fatal => .step 0xF#4 0x7#4
  | .reservedStep _ => .step 0x8#4 0x8#4

/-- A code is one of a row's: the right format, and the masked bits are the row's. -/
def codeIsOfRow : Code → TableRow → Prop
  | .command w, .cmd mask pattern => w &&& mask = pattern
  | .step code, .step mask pattern => code &&& mask = pattern
  | _, _ => False

/-- The encoding of a well-formed instruction is one of its row's codes. -/
def Statement (i : Instr) : Prop := i.wf = true → codeIsOfRow (encode i) (tableRow i)

theorem nop : Statement .nop := fun _ => rfl
theorem processOne : Statement .processOne := fun _ => rfl
theorem run : Statement .run := fun _ => rfl
theorem cancel : Statement .cancel := fun _ => rfl
theorem setInput (src : BitVec 8) : Statement (.setInput src) := fun _ =>
  (by decide : ∀ src : BitVec 8, setInputWord src &&& 0xFFFF00FF#32 = 0x00000004#32) src
theorem idle : Statement .idle := fun _ => rfl
theorem fetch : Statement .fetch := fun _ => rfl
theorem deint : Statement .deint := fun _ => rfl
theorem decode : Statement .decode := fun _ => rfl
theorem reint : Statement .reint := fun _ => rfl
theorem emit : Statement .emit := fun _ => rfl
theorem release : Statement .release := fun _ => rfl
theorem fatal : Statement .fatal := fun _ => rfl
theorem reservedStep (code : BitVec 4) : Statement (.reservedStep code) :=
  (by decide : ∀ code : BitVec 4, (Instr.reservedStep code).wf = true → code &&& 0x8#4 = 0x8#4) code

end Sys2Proof.Laws.EncodingMatchesTable
end

