-- ==== Sys2Proof/Laws/Run.lean ====
section
/-!
SUPPORT. Runs of several steps: one step at a time, and one run after another.
-/

namespace Sys2Proof.Machine

/-- No step. -/
theorem run_zero (s : State) : Host.Core.run Sys2Proof.core 0 s = .next s := rfl

/-- One step that answers a next state, and the run from there. -/
theorem run_succ {s t : State} {n : Nat} (h : step s = .next t) :
    Host.Core.run Sys2Proof.core (n + 1) s = Host.Core.run Sys2Proof.core n t := by
  simp only [Host.Core.run, show Sys2Proof.core.step s = .next t from h]

/-- A run of `n` steps, and the run from where it ends. -/
theorem run_add {s t : State} {n m : Nat} (h : Host.Core.run Sys2Proof.core n s = .next t) :
    Host.Core.run Sys2Proof.core (n + m) s = Host.Core.run Sys2Proof.core m t := by
  induction n generalizing s with
  | zero =>
    rw [run_zero] at h
    cases h
    rw [Nat.zero_add]
  | succ n ih =>
    have hr := Host.Core.run.eq_2 Sys2Proof.core s n
    rw [hr] at h
    rcases hs : Sys2Proof.core.step s with s' | f | r <;> rw [hs] at h
    · rw [show n + 1 + m = n + m + 1 by omega, run_succ hs]
      exact ih h
    · cases h
    · cases h

end Sys2Proof.Machine
end

