-- ==== Sys2Proof/Laws/State.lean ====
section
/-!
SUPPORT. One lemma per field per update of the state: what each named update makes of each field, so that no proof unfolds a
record update.
-/

namespace Sys2Proof.Machine

variable (s : State)

/-! ## `withBlock` -/

@[simp] theorem withBlock_block (b : Block) : (s.withBlock b).block = b := rfl
@[simp] theorem withBlock_config (b : Block) : (s.withBlock b).config = s.config := rfl
@[simp] theorem withBlock_sources (b : Block) : (s.withBlock b).sources = s.sources := rfl
@[simp] theorem withBlock_outReady (b : Block) : (s.withBlock b).outReady = s.outReady := rfl
@[simp] theorem withBlock_sink (b : Block) : (s.withBlock b).sink = s.sink := rfl
@[simp] theorem withBlock_agenda (b : Block) : (s.withBlock b).agenda = s.agenda := rfl
@[simp] theorem withBlock_hostReads (b : Block) : (s.withBlock b).hostReads = s.hostReads := rfl
@[simp] theorem withBlock_events (b : Block) : (s.withBlock b).events = s.events := rfl
@[simp] theorem withBlock_codecCalls (b : Block) : (s.withBlock b).codecCalls = s.codecCalls := rfl

/-! ## `withAgenda` -/

@[simp] theorem withAgenda_block (a : List Move) : (s.withAgenda a).block = s.block := rfl
@[simp] theorem withAgenda_config (a : List Move) : (s.withAgenda a).config = s.config := rfl
@[simp] theorem withAgenda_sources (a : List Move) : (s.withAgenda a).sources = s.sources := rfl
@[simp] theorem withAgenda_outReady (a : List Move) : (s.withAgenda a).outReady = s.outReady := rfl
@[simp] theorem withAgenda_sink (a : List Move) : (s.withAgenda a).sink = s.sink := rfl
@[simp] theorem withAgenda_agenda (a : List Move) : (s.withAgenda a).agenda = a := rfl
@[simp] theorem withAgenda_hostReads (a : List Move) : (s.withAgenda a).hostReads = s.hostReads := rfl
@[simp] theorem withAgenda_events (a : List Move) : (s.withAgenda a).events = s.events := rfl
@[simp] theorem withAgenda_codecCalls (a : List Move) : (s.withAgenda a).codecCalls = s.codecCalls := rfl

/-! ## `withSources` -/

@[simp] theorem withSources_block (q : Vector InputStream 255) : (s.withSources q).block = s.block := rfl
@[simp] theorem withSources_config (q : Vector InputStream 255) : (s.withSources q).config = s.config := rfl
@[simp] theorem withSources_sources (q : Vector InputStream 255) : (s.withSources q).sources = q := rfl
@[simp] theorem withSources_outReady (q : Vector InputStream 255) : (s.withSources q).outReady = s.outReady := rfl
@[simp] theorem withSources_sink (q : Vector InputStream 255) : (s.withSources q).sink = s.sink := rfl
@[simp] theorem withSources_agenda (q : Vector InputStream 255) : (s.withSources q).agenda = s.agenda := rfl
@[simp] theorem withSources_hostReads (q : Vector InputStream 255) : (s.withSources q).hostReads = s.hostReads := rfl
@[simp] theorem withSources_events (q : Vector InputStream 255) : (s.withSources q).events = s.events := rfl
@[simp] theorem withSources_codecCalls (q : Vector InputStream 255) : (s.withSources q).codecCalls = s.codecCalls := rfl

/-! ## `raiseEvent` -/

@[simp] theorem raiseEvent_block (e : Event) : (raiseEvent e s).block = eventEffect e s.block := rfl
@[simp] theorem raiseEvent_config (e : Event) : (raiseEvent e s).config = s.config := rfl
@[simp] theorem raiseEvent_sources (e : Event) : (raiseEvent e s).sources = s.sources := rfl
@[simp] theorem raiseEvent_outReady (e : Event) : (raiseEvent e s).outReady = s.outReady := rfl
@[simp] theorem raiseEvent_sink (e : Event) : (raiseEvent e s).sink = s.sink := rfl
@[simp] theorem raiseEvent_agenda (e : Event) : (raiseEvent e s).agenda = s.agenda := rfl
@[simp] theorem raiseEvent_hostReads (e : Event) : (raiseEvent e s).hostReads = s.hostReads := rfl
@[simp] theorem raiseEvent_events (e : Event) : (raiseEvent e s).events = s.events ++ [e] := rfl
@[simp] theorem raiseEvent_codecCalls (e : Event) : (raiseEvent e s).codecCalls = s.codecCalls := rfl

/-! ## `turnAway` -/

@[simp] theorem turnAway_block (w : Word) : (turnAway w s).block = eventEffect (.illegalCommand w) s.block := rfl
@[simp] theorem turnAway_config (w : Word) : (turnAway w s).config = s.config := rfl
@[simp] theorem turnAway_sources (w : Word) : (turnAway w s).sources = s.sources := rfl
@[simp] theorem turnAway_outReady (w : Word) : (turnAway w s).outReady = s.outReady := rfl
@[simp] theorem turnAway_sink (w : Word) : (turnAway w s).sink = s.sink := rfl
@[simp] theorem turnAway_agenda (w : Word) : (turnAway w s).agenda = s.agenda := rfl
@[simp] theorem turnAway_hostReads (w : Word) : (turnAway w s).hostReads = s.hostReads := rfl
@[simp] theorem turnAway_events (w : Word) : (turnAway w s).events = s.events ++ [.illegalCommand w] := rfl
@[simp] theorem turnAway_codecCalls (w : Word) : (turnAway w s).codecCalls = s.codecCalls := rfl

/-! ## `resetBlock` -/

@[simp] theorem resetBlock_block : (resetBlock s).block = Block.reset s.config := rfl
@[simp] theorem resetBlock_config : (resetBlock s).config = s.config := rfl
@[simp] theorem resetBlock_sources : (resetBlock s).sources = s.sources := rfl
@[simp] theorem resetBlock_outReady : (resetBlock s).outReady = s.outReady := rfl
@[simp] theorem resetBlock_sink : (resetBlock s).sink = s.sink := rfl
@[simp] theorem resetBlock_agenda : (resetBlock s).agenda = s.agenda := rfl
@[simp] theorem resetBlock_hostReads : (resetBlock s).hostReads = s.hostReads := rfl
@[simp] theorem resetBlock_events : (resetBlock s).events = s.events ++ resetEvents s.config := rfl
@[simp] theorem resetBlock_codecCalls : (resetBlock s).codecCalls = s.codecCalls := rfl

/-! ## `setSinkReady` -/

@[simp] theorem setSinkReady_block (ready : Bool) : (setSinkReady ready s).block = s.block := rfl
@[simp] theorem setSinkReady_config (ready : Bool) : (setSinkReady ready s).config = s.config := rfl
@[simp] theorem setSinkReady_sources (ready : Bool) : (setSinkReady ready s).sources = s.sources := rfl
@[simp] theorem setSinkReady_outReady (ready : Bool) : (setSinkReady ready s).outReady = ready := rfl
@[simp] theorem setSinkReady_sink (ready : Bool) : (setSinkReady ready s).sink = s.sink := rfl
@[simp] theorem setSinkReady_agenda (ready : Bool) : (setSinkReady ready s).agenda = s.agenda := rfl
@[simp] theorem setSinkReady_hostReads (ready : Bool) : (setSinkReady ready s).hostReads = s.hostReads := rfl
@[simp] theorem setSinkReady_events (ready : Bool) : (setSinkReady ready s).events = s.events := rfl
@[simp] theorem setSinkReady_codecCalls (ready : Bool) : (setSinkReady ready s).codecCalls = s.codecCalls := rfl

/-! ## `pushFrame` -/

@[simp] theorem pushFrame_block (f : Frame) : (pushFrame f s).block = s.block := rfl
@[simp] theorem pushFrame_config (f : Frame) : (pushFrame f s).config = s.config := rfl
@[simp] theorem pushFrame_sources (f : Frame) : (pushFrame f s).sources = s.sources := rfl
@[simp] theorem pushFrame_outReady (f : Frame) : (pushFrame f s).outReady = s.outReady := rfl
@[simp] theorem pushFrame_sink (f : Frame) : (pushFrame f s).sink = s.sink ++ [f] := rfl
@[simp] theorem pushFrame_agenda (f : Frame) : (pushFrame f s).agenda = s.agenda := rfl
@[simp] theorem pushFrame_hostReads (f : Frame) : (pushFrame f s).hostReads = s.hostReads := rfl
@[simp] theorem pushFrame_events (f : Frame) : (pushFrame f s).events = s.events := rfl
@[simp] theorem pushFrame_codecCalls (f : Frame) : (pushFrame f s).codecCalls = s.codecCalls := rfl

/-! ## `recordCall` -/

@[simp] theorem recordCall_block (k : BitVec 3) (cw : Codeword) : (recordCall k cw s).block = s.block := rfl
@[simp] theorem recordCall_config (k : BitVec 3) (cw : Codeword) : (recordCall k cw s).config = s.config := rfl
@[simp] theorem recordCall_sources (k : BitVec 3) (cw : Codeword) : (recordCall k cw s).sources = s.sources := rfl
@[simp] theorem recordCall_outReady (k : BitVec 3) (cw : Codeword) : (recordCall k cw s).outReady = s.outReady := rfl
@[simp] theorem recordCall_sink (k : BitVec 3) (cw : Codeword) : (recordCall k cw s).sink = s.sink := rfl
@[simp] theorem recordCall_agenda (k : BitVec 3) (cw : Codeword) : (recordCall k cw s).agenda = s.agenda := rfl
@[simp] theorem recordCall_hostReads (k : BitVec 3) (cw : Codeword) : (recordCall k cw s).hostReads = s.hostReads := rfl
@[simp] theorem recordCall_events (k : BitVec 3) (cw : Codeword) : (recordCall k cw s).events = s.events := rfl
@[simp] theorem recordCall_codecCalls (k : BitVec 3) (cw : Codeword) :
    (recordCall k cw s).codecCalls = s.codecCalls ++ [{ index := k, codeword := cw }] := rfl

/-! ## `returnToHost` -/

@[simp] theorem returnToHost_block (v : Word) : (returnToHost v s).block = s.block := rfl
@[simp] theorem returnToHost_config (v : Word) : (returnToHost v s).config = s.config := rfl
@[simp] theorem returnToHost_sources (v : Word) : (returnToHost v s).sources = s.sources := rfl
@[simp] theorem returnToHost_outReady (v : Word) : (returnToHost v s).outReady = s.outReady := rfl
@[simp] theorem returnToHost_sink (v : Word) : (returnToHost v s).sink = s.sink := rfl
@[simp] theorem returnToHost_agenda (v : Word) : (returnToHost v s).agenda = s.agenda := rfl
@[simp] theorem returnToHost_hostReads (v : Word) : (returnToHost v s).hostReads = s.hostReads ++ [v] := rfl
@[simp] theorem returnToHost_events (v : Word) : (returnToHost v s).events = s.events := rfl
@[simp] theorem returnToHost_codecCalls (v : Word) : (returnToHost v s).codecCalls = s.codecCalls := rfl

/-! ## `endStreamOf` -/

@[simp] theorem endStreamOf_block (src : BitVec 8) : (endStreamOf src s).block = s.block := rfl
@[simp] theorem endStreamOf_config (src : BitVec 8) : (endStreamOf src s).config = s.config := rfl
@[simp] theorem endStreamOf_sources (src : BitVec 8) :
    (endStreamOf src s).sources = updateStream s.sources src markEnded := rfl
@[simp] theorem endStreamOf_outReady (src : BitVec 8) : (endStreamOf src s).outReady = s.outReady := rfl
@[simp] theorem endStreamOf_sink (src : BitVec 8) : (endStreamOf src s).sink = s.sink := rfl
@[simp] theorem endStreamOf_agenda (src : BitVec 8) : (endStreamOf src s).agenda = s.agenda := rfl
@[simp] theorem endStreamOf_hostReads (src : BitVec 8) : (endStreamOf src s).hostReads = s.hostReads := rfl
@[simp] theorem endStreamOf_events (src : BitVec 8) : (endStreamOf src s).events = s.events := rfl
@[simp] theorem endStreamOf_codecCalls (src : BitVec 8) : (endStreamOf src s).codecCalls = s.codecCalls := rfl

/-! ## Two updates of the same part -/

@[simp] theorem withBlock_withBlock (b b' : Block) : (s.withBlock b).withBlock b' = s.withBlock b' := rfl
@[simp] theorem withAgenda_withAgenda (a a' : List Move) : (s.withAgenda a).withAgenda a' = s.withAgenda a' := rfl
@[simp] theorem withBlock_self : s.withBlock s.block = s := rfl
@[simp] theorem withAgenda_self : s.withAgenda s.agenda = s := rfl

/-! ## Powering on -/

@[simp] theorem powerOn_config (c : Config) (q : Vector InputStream 255) (r : Bool) (a : List Move) :
    (State.powerOn c q r a).config = c := rfl
@[simp] theorem powerOn_block (c : Config) (q : Vector InputStream 255) (r : Bool) (a : List Move) :
    (State.powerOn c q r a).block = Block.reset c := rfl
@[simp] theorem powerOn_agenda (c : Config) (q : Vector InputStream 255) (r : Bool) (a : List Move) :
    (State.powerOn c q r a).agenda = a := rfl
@[simp] theorem powerOn_sources (c : Config) (q : Vector InputStream 255) (r : Bool) (a : List Move) :
    (State.powerOn c q r a).sources = q := rfl

end Sys2Proof.Machine
end

