-- ==== Sys2Proof/Laws/Steps.lean ====
section
/-!
SUPPORT. What each shared operation and each step can do, said once: the provers cite these instead of unfolding the step
function.
-/

namespace Sys2Proof.Machine

/-! ## Decoding -/

/-- A command word that decodes is one of the five commands. -/
theorem decodeCommand_cases {w : Word} {i : Instr} (h : decodeCommand w = .ok i) :
    i = .nop ∨ i = .processOne ∨ i = .run ∨ i = .cancel ∨ ∃ src, i = .setInput src := by
  unfold decodeCommand at h
  split at h
  · split at h
    all_goals first | (split at h <;> cases h <;> simp) | (cases h; simp) | cases h
  · cases h

/-! ## Classes of states -/

theorem inProgress_iff (b : Block) : b.inProgress = true ↔
    b.state = codeDeint ∨ b.state = codeDecode ∨ b.state = codeReint ∨ b.state = codeEmit ∨ b.state = codeRelease := by
  simp [Block.inProgress, or_assoc]

theorem atBoundary_iff (b : Block) : b.atBoundary = true ↔ b.state = codeIdle ∨ b.state = codeFetch := by
  simp [Block.atBoundary]

/-! ## The steps of the orchestrator, one lemma each -/

/-- FETCH: held, stopped at END, or a unit acquired. -/
theorem fetchStep_cases (s : State) :
    (poll s.sources s.block.srcId = .wait ∧ fetchStep s = s) ∨
    (poll s.sources s.block.srcId = .ended ∧ fetchStep s = raiseEvent .inputExhausted s) ∨
    (∃ u, poll s.sources s.block.srcId = .unit u ∧ fetchStep s = acquireUnit u s) := by
  unfold fetchStep
  split <;> simp_all

/-- A codeword the bound codec has an answer of 255 bytes for: correctable by its flag, corrected to its message. -/
theorem correctable_of_answer {c : Config} {cw msg : Codeword} {ok : Bool} (h : callCodec c.codec cw = .answer ok msg) :
    correctable c cw = ok := by simp only [correctable, h]

theorem corrected_of_answer {c : Config} {cw msg : Codeword} {ok : Bool} (h : callCodec c.codec cw = .answer ok msg) :
    corrected c cw = msg := by simp only [corrected, h]

/-- A codec of which nothing is observed keeps the port contract (spec/41_codec_port.md R75). -/
theorem keepsPortContract_of_observed_nil {c : Config} (h : c.codec.observed = []) (cw : Codeword) :
    keepsPortContract c cw := by
  unfold keepsPortContract callCodec
  rw [h]
  exact ⟨_, _, rfl⟩

/-- The index of a codeword is its value, if that is 0 to 4. -/
theorem codewordIndex_eq_some {v : BitVec 3} {k : Fin 5} : codewordIndex v = some k ↔ v.toNat = k.val := by
  unfold codewordIndex
  split
  · simp [Fin.ext_iff]
  · have := k.isLt
    simp only [reduceCtorEq, false_iff]
    omega

theorem codewordIndex_eq_none {v : BitVec 3} : codewordIndex v = none ↔ 4 < v.toNat := by
  unfold codewordIndex
  split <;> simp <;> omega

/-- DECODE: a fault on a bad index, a refusal of a codec result of another length, else the codeword accepted or the frame
dropped. -/
theorem execDecode_cases (s : State) :
    (4 < s.block.cwIdx.toNat ∧ execDecode s = .fault .badState) ∨
    ∃ k : Fin 5, s.block.cwIdx.toNat = k.val ∧
      ((∃ msg, callCodec s.config.codec s.block.cw[k] = .answer true msg ∧
        execDecode s = .next (acceptCodeword k msg (recordCall s.block.cwIdx s.block.cw[k] s))) ∨
       (∃ msg, callCodec s.config.codec s.block.cw[k] = .answer false msg ∧
        execDecode s = .next (raiseEvent (.uncorrectableCodeword s.block.cwIdx)
          (recordCall s.block.cwIdx s.block.cw[k] s))) ∨
       (∃ bytes, callCodec s.config.codec s.block.cw[k] = .malformed bytes ∧
        execDecode s = .refused .portContract)) := by
  unfold execDecode decodeCodeword
  rcases hk : codewordIndex s.block.cwIdx with _ | k
  · exact .inl ⟨codewordIndex_eq_none.mp hk, rfl⟩
  · refine .inr ⟨k, codewordIndex_eq_some.mp hk, ?_⟩
    rcases ha : callCodec s.config.codec s.block.cw[k] with ⟨_ | _, msg⟩ | bytes
    · exact .inr (.inl ⟨msg, rfl, by simp only [ha]; rfl⟩)
    · exact .inl ⟨msg, rfl, by simp only [ha]; rfl⟩
    · exact .inr (.inr ⟨bytes, rfl, by simp only [ha]⟩)

/-- EMIT: the frame pushed, or held. -/
theorem emitStep_cases (s : State) :
    (s.outReady = true ∧ emitStep s = (pushFrame s.block.outBuf s).withBlock { s.block with
      pendKind := .ok, pendFail := 0#3, state := codeRelease }) ∨
    (s.outReady = false ∧ emitStep s = s) := by
  unfold emitStep
  cases h : s.outReady <;> simp

/-- A message written at its full length is the row. -/
@[simp] theorem writtenRow_full (old msg : Codeword) : writtenRow 255 old msg = msg := by
  ext p hp; simp [writtenRow]

/-! ## The commands, one lemma for all -/

/-- What a command can do to the state `s`. -/
inductive CommandEffect (s : State) : State → Prop where
  | nothing : CommandEffect s s
  | turnedAway (w : Word) : CommandEffect s (turnAway w s)
  | started (continuous : Bool) (h : s.block.state = codeIdle) : CommandEffect s (startCycle continuous s)
  | cancelled (h : s.block.state = codeFetch) :
      CommandEffect s (s.withBlock { s.block with run := false, cancelPending := false, state := codeIdle })
  | cancelDeferred (h : s.block.inProgress = true) :
      CommandEffect s (s.withBlock { s.block with cancelPending := true })
  | swapped (src : BitVec 8) (h : s.block.atBoundary = true) :
      CommandEffect s (s.withBlock { s.block with srcId := src })
  | swapDeferred (src : BitVec 8) (h : s.block.inProgress = true) :
      CommandEffect s (s.withBlock { s.block with pendSrc := src, swapPending := true })

/-- A command always answers a next state, and it is one of the seven effects. -/
theorem exec_command_effect {w : Word} {i : Instr} (hi : decodeCommand w = .ok i) (s : State) :
    ∃ t, exec i s = .next t ∧ CommandEffect s t := by
  rcases decodeCommand_cases hi with rfl | rfl | rfl | rfl | ⟨src, rfl⟩
  · exact ⟨_, rfl, .nothing⟩
  · refine ⟨_, rfl, ?_⟩
    split
    · next h => exact .started false h
    · exact .turnedAway _
  · refine ⟨_, rfl, ?_⟩
    split
    · next h => exact .started true h
    · exact .turnedAway _
  · refine ⟨_, rfl, ?_⟩
    split
    · exact .nothing
    · split
      · next h => exact .cancelled h
      · split
        · next h => exact .cancelDeferred h
        · exact .turnedAway _
  · refine ⟨_, rfl, ?_⟩
    split
    · next h => exact .swapped src h
    · split
      · next h => exact .swapDeferred src h
      · exact .turnedAway _

/-! ## One step -/

/-- A host write either runs a command that CMD received, or turns away, ignores or rejects what was written. -/
theorem hostWrite_cases (offset n : Nat) (v : Word) (s : State) :
    (∃ i, offset = 0 ∧ n = 4 ∧ decodeCommand v = .ok i ∧ hostWrite offset n v s = exec i s) ∨
    hostWrite offset n v s = .next (turnAway v s) ∨
    hostWrite offset n v s = .next s ∨
    hostWrite offset n v s = .next (rejectAccess s) := by
  unfold hostWrite classifyWrite admitted
  by_cases ha : (decide (n = 4) && decide (offset % 4 = 0) && decide (offset < 32)) = true
  · by_cases ho : offset = 0
    · rcases hd : decodeCommand v with e | i
      · simp_all
      · refine .inl ⟨i, ho, ?_, rfl, ?_⟩
        · simp_all
        · simp_all
    · simp only [ha, if_true, ho, if_false]; simp
  · simp only [ha]; simp

/-- The step `state` selects: nine cases, each with the value of `state` that selects it. -/
theorem decodeStep_cases (code : BitVec 4) :
    (code = codeIdle ∧ decodeStep code = .idle) ∨ (code = codeFetch ∧ decodeStep code = .fetch) ∨
    (code = codeDeint ∧ decodeStep code = .deint) ∨ (code = codeDecode ∧ decodeStep code = .decode) ∨
    (code = codeReint ∧ decodeStep code = .reint) ∨ (code = codeEmit ∧ decodeStep code = .emit) ∨
    (code = codeRelease ∧ decodeStep code = .release) ∨ (code = codeFatal ∧ decodeStep code = .fatal) ∨
    (8 ≤ code.toNat ∧ decodeStep code = .reservedStep code) := by
  revert code
  decide

/-- What the orchestrator's turn can do to the state `s`: the step rule by the value of `state`. -/
inductive TurnEffect (s : State) : State → Prop where
  | idle (h : s.block.state = codeIdle) : TurnEffect s s
  | fatal (h : s.block.state = codeFatal) : TurnEffect s s
  | inputWaits (h : s.block.state = codeFetch) (hp : poll s.sources s.block.srcId = .wait) : TurnEffect s s
  | inputEnded (h : s.block.state = codeFetch) (hp : poll s.sources s.block.srcId = .ended) :
      TurnEffect s (raiseEvent .inputExhausted s)
  | acquired (u : RawUnit) (h : s.block.state = codeFetch) (hp : poll s.sources s.block.srcId = .unit u) :
      TurnEffect s (acquireUnit u s)
  | deinterleaved (h : s.block.state = codeDeint) : TurnEffect s (deintStep s)
  | corrected (k : Fin 5) (msg : Codeword) (h : s.block.state = codeDecode) (hk : s.block.cwIdx.toNat = k.val)
      (ha : callCodec s.config.codec s.block.cw[k] = .answer true msg) :
      TurnEffect s (acceptCodeword k msg (recordCall s.block.cwIdx s.block.cw[k] s))
  | uncorrectable (k : Fin 5) (msg : Codeword) (h : s.block.state = codeDecode) (hk : s.block.cwIdx.toNat = k.val)
      (ha : callCodec s.config.codec s.block.cw[k] = .answer false msg) :
      TurnEffect s (raiseEvent (.uncorrectableCodeword s.block.cwIdx) (recordCall s.block.cwIdx s.block.cw[k] s))
  | reinterleaved (h : s.block.state = codeReint) : TurnEffect s (reintStep s)
  | emitted (h : s.block.state = codeEmit) (hr : s.outReady = true) :
      TurnEffect s ((pushFrame s.block.outBuf s).withBlock { s.block with
        pendKind := .ok, pendFail := 0#3, state := codeRelease })
  | sinkWaits (h : s.block.state = codeEmit) (hr : s.outReady = false) : TurnEffect s s
  | released (h : s.block.state = codeRelease) : TurnEffect s (releaseStep s)

/-- The orchestrator's turn: one of these effects, the fault on a reserved code or a bad index, or the refusal of a codec
result. -/
theorem orchestratorTurn_effect (s : State) :
    (∃ t, orchestratorTurn s = .next t ∧ TurnEffect s t) ∨
    (orchestratorTurn s = .fault .badState ∧
      (8 ≤ s.block.state.toNat ∨ (s.block.state = codeDecode ∧ 4 < s.block.cwIdx.toNat))) ∨
    (orchestratorTurn s = .refused .portContract ∧ meetsBadCodecResult s) := by
  unfold orchestratorTurn
  rcases decodeStep_cases s.block.state with ⟨hc, hd⟩ | ⟨hc, hd⟩ | ⟨hc, hd⟩ | ⟨hc, hd⟩ | ⟨hc, hd⟩ | ⟨hc, hd⟩ | ⟨hc, hd⟩ |
    ⟨hc, hd⟩ | ⟨hc, hd⟩ <;> rw [hd]
  · exact .inl ⟨s, rfl, .idle hc⟩
  · refine .inl ⟨fetchStep s, rfl, ?_⟩
    rcases fetchStep_cases s with ⟨hp, he⟩ | ⟨hp, he⟩ | ⟨u, hp, he⟩ <;> rw [he]
    · exact .inputWaits hc hp
    · exact .inputEnded hc hp
    · exact .acquired u hc hp
  · exact .inl ⟨_, rfl, .deinterleaved hc⟩
  · rcases execDecode_cases s with ⟨hk, he⟩ | ⟨k, hk, ⟨msg, ha, he⟩ | ⟨msg, ha, he⟩ | ⟨bytes, ha, he⟩⟩
    · exact .inr (.inl ⟨he, .inr ⟨hc, hk⟩⟩)
    · exact .inl ⟨_, he, .corrected k msg hc hk ha⟩
    · exact .inl ⟨_, he, .uncorrectable k msg hc hk ha⟩
    · exact .inr (.inr ⟨he, hc, k, hk, bytes, ha⟩)
  · exact .inl ⟨_, rfl, .reinterleaved hc⟩
  · refine .inl ⟨emitStep s, rfl, ?_⟩
    rcases emitStep_cases s with ⟨hr, he⟩ | ⟨hr, he⟩ <;> rw [he]
    · exact .emitted hc hr
    · exact .sinkWaits hc hr
  · exact .inl ⟨_, rfl, .released hc⟩
  · exact .inl ⟨s, rfl, .fatal hc⟩
  · exact .inr (.inl ⟨rfl, .inl hc⟩)

/-- What a step can do to the state `s`, given as the effect on the state with the move taken off the agenda. -/
inductive StepEffect (s : State) : State → Prop where
  | turn {t : State} (hm : orchestratorMoves s) (h : TurnEffect s.pop t) : StepEffect s t
  | command {t : State} (w : Word) (i : Instr) (rest : List Move) (hm : s.agenda = .memWrite 0 4 w :: rest)
      (hd : decodeCommand w = .ok i) (he : exec i s.pop = .next t) (h : CommandEffect s.pop t) : StepEffect s t
  | turnedAway (w : Word) : StepEffect s (turnAway w s.pop)
  | ignored : StepEffect s s.pop
  | rejected : StepEffect s (rejectAccess s.pop)
  | read (v : Word) : StepEffect s (returnToHost v s.pop)
  | readRejected (v : Word) : StepEffect s (rejectAccess (returnToHost v s.pop))
  | wasReset (hm : resetMoves s) : StepEffect s (resetBlock s.pop)
  | delivered (src : BitVec 8) (u : RawUnit) :
      StepEffect s (s.pop.withSources (updateStream s.sources src (appendUnit u)))
  | streamEnded (src : BitVec 8) : StepEffect s (endStreamOf src s.pop)
  | sinkSet (ready : Bool) (rest : List Move) (hm : s.agenda = .sinkReady ready :: rest) :
      StepEffect s (setSinkReady ready s.pop)

/-- Everything a step can do: a next state with one of these effects, the one fault, or the one refusal, of a unit or of a
codec result. -/
theorem step_effect (s : State) :
    (∃ t, step s = .next t ∧ StepEffect s t) ∨
    (step s = .fault .badState ∧ orchestratorMoves s ∧
      (8 ≤ s.block.state.toNat ∨ (s.block.state = codeDecode ∧ 4 < s.block.cwIdx.toNat))) ∨
    (step s = .refused .portContract ∧
      ((orchestratorMoves s ∧ meetsBadCodecResult s) ∨
        ∃ src bytes rest, s.agenda = .deliver src bytes :: rest ∧ bytes.length ≠ 1279)) := by
  unfold step
  rcases ha : s.agenda with _ | ⟨m, rest⟩
  · have hp : s.pop = s := by
      show s.withAgenda s.agenda.tail = s
      rw [ha, List.tail_nil, ← ha]; rfl
    rcases orchestratorTurn_effect s with ⟨t, he, h⟩ | ⟨he, h⟩ | ⟨he, h⟩
    · exact .inl ⟨t, he, .turn (.inl ha) (hp.symm ▸ h)⟩
    · exact .inr (.inl ⟨he, .inl ha, h⟩)
    · exact .inr (.inr ⟨he, .inl ⟨.inl ha, h⟩⟩)
  · have hp : s.withAgenda rest = s.pop := by simp [State.pop, ha]
    simp only [hp]
    cases m with
    | orchestrator =>
      rcases orchestratorTurn_effect s.pop with ⟨t, he, h⟩ | ⟨he, h⟩ | ⟨he, h⟩
      · exact .inl ⟨t, he, .turn (.inr ⟨rest, ha⟩) h⟩
      · exact .inr (.inl ⟨he, .inr ⟨rest, ha⟩, h⟩)
      · exact .inr (.inr ⟨he, .inl ⟨.inr ⟨rest, ha⟩, h⟩⟩)
    | memWrite offset n v =>
      rcases hostWrite_cases offset n v s.pop with ⟨i, rfl, rfl, hd, he⟩ | he | he | he
      · obtain ⟨t, ht, h⟩ := exec_command_effect hd s.pop
        exact .inl ⟨t, he.trans ht, .command v i rest ha hd ht h⟩
      · exact .inl ⟨_, he, .turnedAway v⟩
      · exact .inl ⟨_, he, .ignored⟩
      · exact .inl ⟨_, he, .rejected⟩
    | memRead offset n =>
      refine .inl ⟨_, rfl, ?_⟩
      unfold hostRead
      split
      · exact .read _
      · exact .readRejected _
    | reset => exact .inl ⟨_, rfl, .wasReset ⟨rest, ha⟩⟩
    | deliver src bytes =>
      simp only [makeMove, deliverUnit]
      split
      · exact .inl ⟨_, rfl, .delivered src _⟩
      · next hb => exact .inr (.inr ⟨rfl, .inr ⟨src, bytes, rest, rfl, hb⟩⟩)
    | endStream src => exact .inl ⟨_, rfl, .streamEnded src⟩
    | sinkReady ready => exact .inl ⟨_, rfl, .sinkSet ready rest ha⟩

/-- What a step that answers a next state has done. -/
theorem step_next_effect {s t : State} (h : step s = .next t) : StepEffect s t := by
  rcases step_effect s with ⟨t', ht, he⟩ | ⟨hf, -⟩ | ⟨hr, -⟩
  · rw [h] at ht; cases ht; exact he
  · rw [h] at hf; cases hf
  · rw [h] at hr; cases hr

end Sys2Proof.Machine
end

