-- ==== Sys2Proof/Laws/Streams.lean ====
section
/-!
SUPPORT. The two stream ports: an update reaches one stream only, and a poll sees the head unit of the stream it names
(spec/43_io_adapter_commands.md R96, R97).
-/

namespace Sys2Proof.Machine

/-- Two source ids at the same place are the same id. -/
theorem sourceIndex_injective {a b : BitVec 8} {k : Fin 255} (ha : sourceIndex a = some k) (hb : sourceIndex b = some k) :
    a = b := by
  unfold sourceIndex at ha hb
  split at ha <;> split at hb <;> simp only [Option.some.injEq, reduceCtorEq] at ha hb
  subst hb
  have := congrArg Fin.val ha
  simp only at this
  exact BitVec.eq_of_toNat_eq (by omega)

/-- An update leaves the stream of every other id as it was. -/
theorem poll_updateStream_other (q : Vector InputStream 255) {id id' : BitVec 8} (h : id' ≠ id)
    (f : InputStream → InputStream) : poll (updateStream q id f) id' = poll q id' := by
  unfold poll updateStream
  rcases hk : sourceIndex id with _ | k
  · rfl
  · rcases hk' : sourceIndex id' with _ | k'
    · rfl
    · have hne : k.val ≠ k'.val := fun e => h (sourceIndex_injective hk' (Fin.ext e ▸ hk))
      simp [hne]

/-- After an update the stream of its id answers as the updated stream does. -/
theorem poll_updateStream_same (q : Vector InputStream 255) (id : BitVec 8) (f : InputStream → InputStream) :
    poll (updateStream q id f) id = match sourceIndex id with
      | none => .ended
      | some k => pollStream (f q[k]) := by
  unfold poll updateStream
  rcases hk : sourceIndex id with _ | k <;> simp

/-- A stream whose queue has a head answers it. -/
theorem pollStream_of_head {st : InputStream} {u : RawUnit} {rest : List RawUnit} (h : st.queue = u :: rest) :
    pollStream st = .unit u := by
  simp [pollStream, h]

/-- A source that answers a unit has a stream, and the unit is its head. -/
theorem poll_eq_unit {q : Vector InputStream 255} {id : BitVec 8} {u : RawUnit} (h : poll q id = .unit u) :
    ∃ k rest, sourceIndex id = some k ∧ q[k].queue = u :: rest := by
  unfold poll at h
  rcases hk : sourceIndex id with _ | k
  · simp [hk] at h
  · simp only [hk, pollStream] at h
    split at h
    · next rest hq => exact ⟨k, rest, rfl, by simp_all⟩
    · split at h <;> cases h

/-- A unit at the head of a source stays there when any source is given more units. -/
theorem poll_append_of_unit {q : Vector InputStream 255} {id src : BitVec 8} {u : RawUnit} (v : RawUnit)
    (h : poll q id = .unit u) : poll (updateStream q src (appendUnit v)) id = .unit u := by
  by_cases hs : id = src
  · subst hs
    obtain ⟨k, rest, hk, hq⟩ := poll_eq_unit h
    rw [poll_updateStream_same, hk]
    refine pollStream_of_head (rest := if q[k].ended then rest else rest ++ [v]) ?_
    unfold appendUnit
    split <;> simp_all
  · rw [poll_updateStream_other _ hs, h]

/-- A unit at the head of a source stays there when any stream ends. -/
theorem poll_markEnded_of_unit {q : Vector InputStream 255} {id src : BitVec 8} {u : RawUnit} (h : poll q id = .unit u) :
    poll (updateStream q src markEnded) id = .unit u := by
  by_cases hs : id = src
  · subst hs
    obtain ⟨k, rest, hk, hq⟩ := poll_eq_unit h
    rw [poll_updateStream_same, hk]
    exact pollStream_of_head (rest := rest) hq
  · rw [poll_updateStream_other _ hs, h]

/-- Source id 0 is no source: a poll of it answers END. -/
@[simp] theorem poll_zero (q : Vector InputStream 255) : poll q 0#8 = .ended := rfl

end Sys2Proof.Machine
end

