-- ==== Sys2Proof/Tests/Slice0.lean ====
section
/-!
SUPPORT. Tests. Expected values come from spec/95_test_vectors.md (its section is named at each group) or from the tables of
spec/30_encoding.md; the last part shows, for every statement with hypotheses, a state and operands that meet them.
-/

set_option Elab.async false

namespace Sys2Proof.Tests

open Sys2Proof Sys2Proof.Machine

/-! ## Decoding: one word of every row, written out from spec/30_encoding.md R51, R54, R55 -/

theorem test_decode_nop : decode (.command 0b00000000000000000000000000000000#32) = .ok .nop := by rfl
theorem test_decode_processOne : decode (.command 0b00000000000000000000000000000001#32) = .ok .processOne := by rfl
theorem test_decode_run : decode (.command 0b00000000000000000000000000000010#32) = .ok .run := by rfl
theorem test_decode_cancel : decode (.command 0b00000000000000000000000000000011#32) = .ok .cancel := by rfl
theorem test_decode_setInput : decode (.command 0b00000000000000001111111000000100#32) = .ok (.setInput 0xFE#8) := by
  decide +kernel
theorem test_decode_idle : decode (.step 0b0000#4) = .ok .idle := by rfl
theorem test_decode_fetch : decode (.step 0b0001#4) = .ok .fetch := by rfl
theorem test_decode_deint : decode (.step 0b0010#4) = .ok .deint := by rfl
theorem test_decode_decode : decode (.step 0b0011#4) = .ok .decode := by rfl
theorem test_decode_reint : decode (.step 0b0100#4) = .ok .reint := by rfl
theorem test_decode_emit : decode (.step 0b0101#4) = .ok .emit := by rfl
theorem test_decode_release : decode (.step 0b0110#4) = .ok .release := by rfl
theorem test_decode_fatal : decode (.step 0b0111#4) = .ok .fatal := by rfl
theorem test_decode_reservedStep : decode (.step 0b1101#4) = .ok (.reservedStep 13#4) := by rfl

/-- The illegal words of spec/95_test_vectors.md 3, each refused by its own name. -/
theorem test_decode_illegal :
    decodeCommand 0x00000005#32 = .error (.unassignedOpcode 5#8) ∧
    decodeCommand 0x000000FF#32 = .error (.unassignedOpcode 0xFF#8) ∧
    decodeCommand 0x00010001#32 = .error .reservedFieldNotZero ∧
    decodeCommand 0x00000101#32 = .error .argumentNotZero ∧
    decodeCommand 0x00010004#32 = .error .reservedFieldNotZero := by decide +kernel

theorem test_decode_lengths :
    decodeBytes [] = .error (.noSuchLength 0) ∧ decodeBytes [4#8, 3#8, 0#8, 0#8] = .ok (.setInput 3#8) ∧
    decodeBytes [6#8] = .ok .release ∧ decodeBytes [1#8, 0#8] = .error (.noSuchLength 2) := by decide +kernel

/-- `SET_INPUT 3` is the word 0x00000304 (the worked encoding of spec/30_encoding.md 5). -/
theorem test_encode_setInput : encode (.setInput 3#8) = .command 0x00000304#32 := by rfl

theorem test_decodeTableWord :
    decodeTableWord 32 0x00000304 = some (.setInput 3#8) ∧ decodeTableWord 4 0x6 = some .release ∧
    decodeTableWord 4 0x8 = some (.reservedStep 8#4) ∧ decodeTableWord 32 0x00000005 = none := by decide +kernel

/-! ## Well-formedness: an ill-formed term for each check -/

theorem test_wf_reservedStep_refused : (Instr.reservedStep 3#4).wf = false ∧ (Instr.reservedStep 7#4).wf = false := by decide
theorem test_wf_reservedStep_accepted : (Instr.reservedStep 8#4).wf = true ∧ (Instr.reservedStep 15#4).wf = true := by decide

/-! ## The test configurations of spec/95_test_vectors.md 0 -/

def tc1Fwd : Vector Byte 256 := tabulate 256 fun v => BitVec.ofNat 8 (v.val + 1)
def tc1Rev : Vector Byte 256 := tabulate 256 fun v => BitVec.ofNat 8 (v.val + 255)

/-- TC1: FWD adds one, REV takes one away, PRBS counts; with the codec given. -/
def tc1Raw (codec : CodecBinding) : RawConfig where
  fwd := tc1Fwd
  rev := tc1Rev
  prbs := tabulate 255 fun j => BitVec.ofNat 8 j.val
  codec := codec
  codecConfigOk := true

theorem tc1_rev_undoes_fwd : tableUndoes tc1Rev tc1Fwd = true := by
  simp only [tableUndoes, tc1Rev, tc1Fwd, getElem_tabulate, decide_eq_true_eq, BitVec.toNat_ofNat]
  omega

theorem tc1_fwd_undoes_rev : tableUndoes tc1Fwd tc1Rev = true := by
  simp only [tableUndoes, tc1Rev, tc1Fwd, getElem_tabulate, decide_eq_true_eq, BitVec.toNat_ofNat]
  omega

/-- TC1 as a checked configuration. -/
def tc1 (codec : CodecBinding) : Config where
  toRawConfig := tc1Raw codec
  revUndoesFwd := tc1_rev_undoes_fwd
  fwdUndoesRev := tc1_fwd_undoes_rev

/-- TC1 with a codec that could not be constructed. -/
def tc1Failed : Config := { tc1 { handle := 0, observed := [] } with codecConfigOk := false }

/-- The codewords of a payload under TC1, `CW[k][p] = (payload[5p + k] + 1) mod 256`. -/
def tc1Row (payload : Nat → Nat) (k : Nat) : Codeword := tabulate 255 fun p => BitVec.ofNat 8 (payload (5 * p.val + k) + 1)

/-- The five codewords of a payload under TC1. -/
def tc1Rows (payload : Nat → Nat) : Rows := tabulate 5 fun k => tc1Row payload k.val

/-- The bytes of PM(k): 0xEE at k and 0 elsewhere. -/
def mark (k i : Nat) : Nat := if i = k then 0xEE else 0

/-- What a codec says of a codeword: the codeword itself as the message, with a flag. -/
def echoes (ok : Bool) (cw : Codeword) : CodecObservation := { codeword := cw, ok := ok, bytes := cw.toList }

/-- C_ID on the five codewords of PI. -/
def codecId : CodecBinding where
  handle := 0
  observed := (List.range 5).map fun k => echoes true (tc1Row id k)

/-- C_MARK on the codewords of PM(2), which fails the third. -/
def codecMark : CodecBinding where
  handle := 0
  observed := (List.range 5).map fun k => echoes (k != 2) (tc1Row (mark 2) k)

/-- A codec that answers two bytes for every row of zeros. -/
def codecShort : CodecBinding where
  handle := 0
  observed := [{ codeword := zeroBytes 255, ok := true, bytes := [1#8, 2#8] }]

/-- A pair that is no inverse pair: FWD adds one and REV is the identity. -/
def brokenRaw : RawConfig := { tc1Raw codecId with rev := tabulate 256 fun v => BitVec.ofNat 8 v.val }

/-- A FWD that is constant has no inverse. -/
def constantRaw : RawConfig := { tc1Raw codecId with fwd := tabulate 256 fun _ => 0#8 }

/-- A raw configuration one byte of which does not come back is ill-formed. -/
theorem wf_false {raw : RawConfig} (v : Fin 256) (h : raw.rev[(raw.fwd[v.val]).toNat].toNat ≠ v.val) : raw.wf = false := by
  have : tableUndoes raw.rev raw.fwd = false := decide_eq_false fun ha => h (ha v)
  rw [RawConfig.wf, this, Bool.false_and]

theorem test_wf_raw_refused : brokenRaw.wf = false ∧ constantRaw.wf = false :=
  ⟨wf_false 0 (by decide +kernel), wf_false 0 (by decide +kernel)⟩

theorem boot_refuses {raw : RawConfig} (h : raw.wf = false) (sources : Vector InputStream 255) (ready : Bool)
    (agenda : List Move) : boot raw sources ready agenda = .refused .configRefused := by
  have h' : admitConfig raw = .error .configRefused := dif_neg (by rw [h]; decide)
  unfold boot
  rw [h']

theorem test_brokenRaw_refused (sources : Vector InputStream 255) :
    boot brokenRaw sources true [] = .refused .configRefused :=
  boot_refuses test_wf_raw_refused.1 sources true []

/-! ## Payloads and units of spec/95_test_vectors.md 0 -/

/-- The payload whose byte `i` is `f i`, modulo 256. -/
def payloadFrom (f : Nat → Nat) : Frame := tabulate 1275 fun i => BitVec.ofNat 8 (f i.val)

def pz : Frame := payloadFrom fun _ => 0
def pi : Frame := payloadFrom id
def pm (k : Nat) : Frame := payloadFrom (mark k)

/-- A unit: four header bytes, then the payload. -/
def unitOf (payload : Frame) : RawUnit :=
  tabulate 1279 fun i => if h : 4 ≤ i.val then payload[i.val - 4] else 0x1A#8

/-- The codewords of a unit under TC1, element by element. -/
theorem codewordsOf_tc1 (codec : CodecBinding) (f : Nat → Nat) :
    codewordsOf (tc1 codec) (unitOf (payloadFrom f)) = tc1Rows f := by
  apply Vector.ext
  intro k hk
  apply Vector.ext
  intro p hp
  simp only [codewordsOf, deinterleave, payloadOf, fwdXlate, unitOf, payloadFrom, tc1Rows, tc1Row, tc1, tc1Raw, tc1Fwd,
    unitIndex, payloadIndex, getElem_tabulate, Fin.getElem_fin, Nat.add_sub_cancel_left, Nat.le_add_right, dif_pos]
  apply BitVec.eq_of_toNat_eq
  simp

/-! ## The datapath, spec/95_test_vectors.md 2 -/

theorem test_translate :
    fwdXlate (tc1 codecId) 0x00#8 = 0x01#8 ∧ fwdXlate (tc1 codecId) 0x7F#8 = 0x80#8 ∧
    fwdXlate (tc1 codecId) 0xFF#8 = 0x00#8 ∧ revXlate (tc1 codecId) 0x00#8 = 0xFF#8 ∧
    revXlate (tc1 codecId) 0x01#8 = 0x00#8 := by decide +kernel

theorem test_derandomize :
    derandomize (tc1 codecId) 0 0x00#8 = 0x00#8 ∧ derandomize (tc1 codecId) 254 0x00#8 = 0xFE#8 ∧
    derandomize (tc1 codecId) 255 0x00#8 = 0x00#8 ∧ derandomize (tc1 codecId) 256 0x00#8 = 0x01#8 ∧
    derandomize (tc1 codecId) 1274 0x00#8 = 0xFE#8 := by decide +kernel

theorem test_deinterleave :
    let rows := deinterleave (tc1 codecId) pi
    rows[0][0] = 0x01#8 ∧ rows[4][0] = 0x05#8 ∧ rows[0][1] = 0x06#8 ∧ rows[2][1] = 0x08#8 ∧
    rows[0][51] = 0x00#8 ∧ rows[1][51] = 0x01#8 ∧ rows[0][254] = 0xF7#8 ∧ rows[4][254] = 0xFB#8 := by decide +kernel

theorem test_reinterleave :
    let out := reinterleave (tc1 codecId) (deinterleave (tc1 codecId) pi)
    out[0] = 0x00#8 ∧ out[254] = 0x00#8 ∧ out[255] = 0xFF#8 ∧ out[256] = 0x01#8 ∧ out[257] = 0x03#8 ∧
    out[510] = 0xFE#8 ∧ out[1019] = 0x05#8 ∧ out[1020] = 0xFC#8 ∧ out[1274] = 0x04#8 := by decide +kernel

theorem test_reinterleave_zero_rows :
    let out := reinterleave (tc1 codecId) zeroRows
    out[0] = 0xFF#8 ∧ out[1] = 0xFE#8 ∧ out[254] = 0x01#8 ∧ out[255] = 0xFF#8 ∧ out[1274] = 0x01#8 := by decide +kernel

/-! ## Small states -/

/-- Streams: those listed, by id; every other id has an empty, ended stream (spec/43_io_adapter_commands.md R96). -/
def streams (l : List (Nat × InputStream)) : Vector InputStream 255 :=
  tabulate 255 fun k => (l.lookup (k.val + 1)).getD { queue := [], ended := true }

/-- The block after reset under TC1, but in the step of that code, with source 1 attached. -/
def blockIn (code : BitVec 4) : Block := { Block.reset (tc1 codecId) with state := code, srcId := 1#8 }

/-- A machine of that configuration with that block, one PI unit on source 1 and nothing ended there, a ready sink, and the
moves given. -/
def machineOf (c : Config) (b : Block) (agenda : List Move) : State :=
  (State.powerOn c (streams [(1, { queue := [unitOf pi], ended := false }),
    (3, { queue := [], ended := false })]) true agenda).withBlock b

/-- A machine under TC1 with C_ID. -/
abbrev machine (b : Block) (agenda : List Move) : State := machineOf (tc1 codecId) b agenda

/-- The block an outcome leaves, if it is a next state. -/
def blockOf : Host.Outcome State Fault Refusal → Option Block
  | .next t => some t.block
  | .fault _ => none
  | .refused _ => none

/-- Something of the state an outcome leaves. -/
def after {α : Type} (f : State → α) : Host.Outcome State Fault Refusal → Option α
  | .next t => some (f t)
  | .fault _ => none
  | .refused _ => none

/-! ## LAST_RESULT and STATUS words, spec/95_test_vectors.md 3 -/

theorem test_result_words :
    resultOk = 0x27DCFF01#32 ∧ resultDropped 0#3 = 0x0004FF02#32 ∧ resultDropped 1#3 = 0x0004FF06#32 ∧
    resultDropped 2#3 = 0x0004FF0A#32 ∧ resultDropped 3#3 = 0x0004FF0E#32 ∧ resultDropped 4#3 = 0x0004FF12#32 ∧
    resultEos = 0x00000003#32 := by decide +kernel

theorem test_status_words :
    statusWord (Block.reset (tc1 codecId)) = 0x00000000#32 ∧
    statusWord (Block.reset tc1Failed) = 0x00000107#32 ∧
    statusWord (blockIn codeIdle) = 0x00010000#32 ∧
    statusWord { blockIn codeFetch with run := true } = 0x00010081#32 ∧
    statusWord { blockIn codeDecode with cwIdx := 1#3, run := true, swapPending := true, pendSrc := 2#8 } = 0x02010293#32 ∧
    statusWord { blockIn codeIdle with srcId := 2#8, cmdErr := true, pendSrc := 2#8 } = 0x02020800#32 := by decide +kernel

/-! ## One step of every instruction -/

theorem test_nop_in_fatal : after (fun t => statusWord t.block)
    (exec .nop (machine (Block.reset tc1Failed) [])) = some 0x00000107#32 := by
  decide +kernel

theorem test_processOne : after (fun t => (t.block.state, t.block.run))
    (exec .processOne (machine { blockIn codeIdle with run := true } [])) = some (codeFetch, false) := by decide +kernel

theorem test_processOne_in_fatal : after (fun t => (statusWord t.block, t.events.length))
    (exec .processOne (machine { Block.reset (tc1 codecId) with state := codeFatal, fatal := true } [])) =
    some (0x00000907#32, 1) := by decide +kernel

theorem test_run : after (fun t => statusWord t.block) (exec .run (machine (blockIn codeIdle) [])) =
    some 0x00010081#32 := by decide +kernel

theorem test_run_in_decode : after (fun t => (statusWord t.block, t.events))
    (exec .run (machine (blockIn codeDecode) [])) = some (0x00010803#32, [.illegalCommand 2#32]) := by decide +kernel

/-- P4: CANCEL in FETCH acts at once. -/
theorem test_cancel_in_fetch : after (fun t => statusWord t.block)
    (exec .cancel (machine { blockIn codeFetch with run := true, srcId := 3#8 } [])) = some 0x00030000#32 := by
  decide +kernel

theorem test_cancel_in_emit : after (fun t => (t.block.state, t.block.cancelPending, t.block.run))
    (exec .cancel (machine { blockIn codeEmit with run := true } [])) = some (codeEmit, true, true) := by decide +kernel

theorem test_setInput_in_idle : after (fun t => statusWord t.block)
    (exec (.setInput 0xFE#8) (machine (blockIn codeIdle) [])) = some 0x00FE0000#32 := by decide +kernel

/-- The deferred swap of spec/43_io_adapter_commands.md R106's example. -/
theorem test_setInput_in_decode : after (fun t => statusWord t.block)
    (exec (.setInput 2#8) (machine { blockIn codeDecode with cwIdx := 1#3, run := true } [])) =
    some 0x02010293#32 := by decide +kernel

theorem test_idle : after (fun t => statusWord t.block) (exec .idle (machine (blockIn codeIdle) [])) =
    some 0x00010000#32 := by decide +kernel

theorem test_fetch_unit : after (fun t => (t.block.state, t.block.framesAttempted, t.block.inBuf[4 + 7], t.sources[0].queue.length))
    (exec .fetch (machine { blockIn codeFetch with framesAttempted := 0xFFFFFFFF#32 } [])) =
    some (codeDeint, 0#32, 7#8, 1) := by decide +kernel

theorem test_fetch_end : after (fun t => (t.block.state, t.block.run, t.block.lastResult))
    (exec .fetch (machine { blockIn codeFetch with run := true, srcId := 0#8 } [])) =
    some (codeIdle, false, 0x00000003#32) := by decide +kernel

theorem test_deint :
    after (fun t => (t.block.cw[2][1], t.block.cw[4][254], t.block.cwIdx, t.block.state))
    (exec .deint (machine { blockIn codeDeint with inBuf := unitOf pi, cwIdx := 4#3 } [])) =
    some (0x08#8, 0xFB#8, 0#3, codeDecode) := by decide +kernel

/-- C_MARK passes codeword 1 of a PM(2) unit and fails codeword 2: the row keeps its contents, the outcome is latched. -/
theorem test_decode_ok : after (fun t => (t.block.cc[1][1], t.block.cwIdx, t.block.state, t.codecCalls.length))
    (exec .decode (machineOf (tc1 codecMark)
      { blockIn codeDecode with cw := tc1Rows (mark 2), cwIdx := 1#3 } [])) =
    some (0x01#8, 2#3, codeDecode, 1) := by decide +kernel

theorem test_decode_fails :
    after (fun t => (t.block.cc[2][1], t.block.pendFail, t.block.pendKind, t.block.state, t.events))
    (exec .decode (machineOf (tc1 codecMark) { blockIn codeDecode with
      cw := tc1Rows (mark 2), cwIdx := 2#3, cc := tc1Rows id } [])) =
    some (0x08#8, 2#3, .dropped, codeRelease, [.uncorrectableCodeword 2#3]) := by decide +kernel

/-- A codec result of another length is refused at the port (spec/60_exceptions.md R114). -/
theorem test_codec_length : after (fun _ => ()) (exec .decode (machineOf (tc1 codecShort) (blockIn codeDecode) [])) = none := by
  decide +kernel

theorem test_reint : after (fun t => (t.block.outBuf[257], t.block.outBuf[1274], t.block.state))
    (exec .reint (machine { blockIn codeReint with cc := tc1Rows id } [])) =
    some (0x03#8, 0x04#8, codeEmit) := by decide +kernel

theorem test_emit : after (fun t => (t.block.state, t.block.pendKind, t.sink.length))
    (exec .emit (machine { blockIn codeEmit with pendKind := .dropped } [])) = some (codeRelease, .ok, 1) := by decide +kernel

theorem test_emit_held : after (fun t => (t.block.state, t.sink.length))
    (exec .emit (setSinkReady false (machine (blockIn codeEmit) []))) = some (codeEmit, 0) := by decide +kernel

/-- FRAMES_OK wraps; the swap is applied after the unit left the old source; the run goes on. -/
theorem test_release_ok :
    after (fun t => (t.block.framesOk, t.block.lastResult, t.block.state, t.block.srcId, t.sources[0].queue.length))
    (exec .release (machine { blockIn codeRelease with
      framesOk := 0xFFFFFFFF#32, run := true, swapPending := true, pendSrc := 2#8 } [])) =
    some (0#32, 0x27DCFF01#32, codeFetch, 2#8, 0) := by decide +kernel

/-- The example of spec/42_orchestrator.md R91: dropped at codeword 3. -/
theorem test_release_dropped :
    after (fun t => (t.block.framesDropped, t.block.lastResult, t.block.state, t.block.run))
    (exec .release (machine { blockIn codeRelease with
      pendKind := .dropped, pendFail := 3#3, run := true, cancelPending := true } [])) =
    some (1#32, 0x0004FF0E#32, codeIdle, false) := by decide +kernel

theorem test_fatal : after (fun t => t.block.state) (exec .fatal (machine (blockIn codeFatal) [])) = some codeFatal := by
  decide +kernel

theorem test_reservedStep (s : State) : exec (.reservedStep 8#4) s = .fault .badState := rfl

/-! ## Steps of the host and the environment, spec/95_test_vectors.md 3 -/

theorem test_write_two_bytes : after (fun t => (statusWord t.block, t.events))
    (step (machine (blockIn codeIdle) [.memWrite 0 2 1#32])) = some (0x00010800#32, [.hostAccessError]) := by decide +kernel

theorem test_read_misaligned : after (fun t => (t.hostReads, t.block.cmdErr))
    (step (machine (blockIn codeIdle) [.memRead 2 4])) = some ([0#32], true) := by decide +kernel

theorem test_read_reserved : after (fun t => (t.hostReads, t.block.cmdErr))
    (step (machine (blockIn codeIdle) [.memRead 0x18 4])) = some ([0#32], false) := by decide +kernel

theorem test_read_status : after (fun t => t.hostReads)
    (step (machine (blockIn codeIdle) [.memRead 4 4])) = some [0x00010000#32] := by decide +kernel

theorem test_write_status : after (fun t => statusWord t.block)
    (step (machine (blockIn codeIdle) [.memWrite 4 4 0x12345678#32])) = some 0x00010000#32 := by decide +kernel

/-- A machine whose codec could not be constructed goes to FATAL by a reset, from any state. -/
theorem test_reset_failed : after (fun t => statusWord t.block)
    (step (machineOf tc1Failed (blockIn codeIdle) [.reset])) = some 0x00000107#32 := by decide +kernel

theorem test_short_unit : step (machine (blockIn codeIdle) [.deliver 1#8 [0#8]]) = .refused .portContract := by rfl

theorem test_withFetchWord : after (fun t => statusWord t.block)
    (step ((machine (blockIn codeIdle) []).withFetchWord 32 0x00000304)) = some 0x00030000#32 := by decide +kernel

theorem test_lines : moveOfLine (.command (.setInput 1#8)) = .memWrite 0 4 0x00000104#32 ∧
    moveOfLine (.read .lastResult) = .memRead 8 4 ∧ waitIdleOver 0x00000107#32 = true ∧
    waitSwapOver 0x02010293#32 = false := by decide +kernel

/-! ## Witnesses: for every statement with hypotheses, states and operands that meet them

One theorem per statement, named after it; where a statement has several cases, one conjunct per case, at the ends of its
range. -/

theorem witness_DecodeInvertsEncode :
    (Instr.setInput 0x00#8).wf = true ∧ (Instr.setInput 0xFF#8).wf = true ∧
    (Instr.reservedStep 8#4).wf = true ∧ (Instr.reservedStep 15#4).wf = true := by decide

theorem witness_EncodeInvertsDecode :
    decode (.command 0x0000FF04#32) = .ok (.setInput 0xFF#8) ∧ decode (.step 8#4) = .ok (.reservedStep 8#4) ∧
    decode (.step 7#4) = .ok .fatal := by decide +kernel

/-- The four kinds of illegal word, at OP 0x05 and 0xFF, and the legal words in states that do not accept them. -/
theorem witness_IllegalWordsSetCmdErrOnly :
    illegalWord 0x00000005#32 ∧ illegalWord 0x000000FF#32 ∧ illegalWord 0x00010004#32 ∧ illegalWord 0x00000101#32 ∧
    ¬ illegalWord 0x0000FF04#32 ∧
    (machine (blockIn codeIdle) [.memWrite 0 4 0x00000005#32]).agenda = [.memWrite 0 4 0x00000005#32] ∧
    (machine (blockIn codeFetch) [.memWrite 0 4 1#32]).block.state ≠ codeIdle ∧
    (machine (blockIn codeFatal) [.memWrite 0 4 3#32]).block.state = codeFatal := by
  refine ⟨?_, ?_, ?_, ?_, ?_, rfl, ?_, rfl⟩
  · exact .inl (by decide)
  · exact .inl (by decide)
  · exact .inr (.inl (by decide))
  · exact .inr (.inr (by decide))
  · unfold illegalWord; decide
  · decide

theorem witness_OrchestratorRunsTheSelectedStep :
    (orchestratorMoves (machine (blockIn codeDeint) []) ∧
      decode (.step (machine (blockIn codeDeint) []).block.state) = .ok .deint) ∧
    (orchestratorMoves (machine (blockIn 15#4) [.orchestrator, .reset]) ∧
      decode (.step (machine (blockIn 15#4) [.orchestrator, .reset]).block.state) = .ok (.reservedStep 15#4)) :=
  ⟨⟨.inl rfl, rfl⟩, ⟨.inr ⟨[.reset], rfl⟩, rfl⟩⟩

theorem witness_AWrittenCommandRuns :
    (machine (blockIn codeDecode) [.memWrite 0 4 0x0000FF04#32]).agenda = [.memWrite 0 4 0x0000FF04#32] ∧
    decode (.command 0x0000FF04#32) = .ok (.setInput 0xFF#8) := ⟨rfl, by decide +kernel⟩

/-- States in IDLE, FETCH, the first and the last step of a frame, and FATAL: the cases of the commands' statements
ProcessOneStartsFromIdleOnly, RunStartsFromIdleOnly, CancelByState, SetInputByState and FatalIsLeftByResetOnly. -/
theorem witness_commands_by_state :
    (machine (blockIn codeIdle) []).block.state = codeIdle ∧ (machine (blockIn codeIdle) []).block.atBoundary = true ∧
    (machine (blockIn codeFetch) []).block.state ≠ codeIdle ∧ (machine (blockIn codeFetch) []).block.atBoundary = true ∧
    (machine (blockIn codeDeint) []).block.inProgress = true ∧ (machine (blockIn codeRelease) []).block.inProgress = true ∧
    (machine (blockIn codeFatal) []).block.state = codeFatal := by decide +kernel

/-- RUN, PROCESS_ONE, and the reset of a machine whose codec could not be constructed, each leave IDLE. -/
theorem witness_IdleIsLeftByStartCommandsOnly :
    (∃ s t : State, s.block.state = codeIdle ∧ step s = .next t ∧ t.block.state ≠ codeIdle ∧
      s.agenda = [.memWrite 0 4 2#32]) ∧
    (∃ s t : State, s.block.state = codeIdle ∧ step s = .next t ∧ t.block.state ≠ codeIdle ∧
      s.agenda = [.memWrite 0 4 1#32]) ∧
    (∃ s t : State, s.block.state = codeIdle ∧ step s = .next t ∧ t.block.state ≠ codeIdle ∧ s.agenda = [.reset]) :=
  ⟨⟨machine (blockIn codeIdle) [.memWrite 0 4 2#32], _, rfl, rfl, by decide +kernel, rfl⟩,
   ⟨machine (blockIn codeIdle) [.memWrite 0 4 1#32], _, rfl, rfl, by decide +kernel, rfl⟩,
   ⟨machineOf tc1Failed (blockIn codeIdle) [.reset], _, rfl, rfl, by decide +kernel, rfl⟩⟩

/-- The streams of `machine`: a unit on source 1, waiting on source 3, ended elsewhere. -/
theorem machine_polls (c : Config) (b : Block) (agenda : List Move) :
    poll (machineOf c b agenda).sources 1#8 = .unit (unitOf pi) ∧ poll (machineOf c b agenda).sources 3#8 = .wait ∧
    poll (machineOf c b agenda).sources 255#8 = .ended ∧ poll (machineOf c b agenda).sources 0#8 = .ended := by
  simp [machineOf, State.withBlock, State.powerOn, poll, sourceIndex, streams, List.lookup, pollStream]

theorem witness_FetchByTheSourcesAnswer :
    poll (machine { blockIn codeFetch with srcId := 3#8 } []).sources 3#8 = .wait ∧
    poll (machine { blockIn codeFetch with srcId := 255#8 } []).sources 255#8 = .ended ∧
    poll (machine (blockIn codeFetch) []).sources (machine (blockIn codeFetch) []).block.srcId = .unit (unitOf pi) :=
  ⟨(machine_polls _ _ _).2.1, (machine_polls _ _ _).2.2.1, (machine_polls _ _ _).1⟩

theorem witness_PollAnswersFromTheQueue :
    (streams [(1, { queue := [unitOf pi], ended := false })])[(1#8).toNat - 1]? =
      some { queue := [unitOf pi], ended := false } ∧
    (streams [(255, { queue := [], ended := false })])[(255#8).toNat - 1]? = some { queue := [], ended := false } ∧
    (streams [])[(255#8).toNat - 1]? = some { queue := [], ended := true } := by
  simp [streams, List.lookup]

/-- A machine under TC1 with C_MARK in DECODE on codeword `k` of a PM(2) unit. -/
def inDecode (k : BitVec 3) (agenda : List Move) : State :=
  machineOf (tc1 codecMark) { blockIn codeDecode with
    inBuf := unitOf (pm 2), cw := tc1Rows (mark 2), cwIdx := k } agenda

/-- The flag of an answer of 255 bytes. -/
def flagOf : CodecAnswer → Option Bool
  | .answer ok _ => some ok
  | .malformed _ => none

theorem answer_of_flag {a : CodecAnswer} {ok : Bool} (h : flagOf a = some ok) : ∃ msg, a = .answer ok msg := by
  cases a with
  | answer ok' msg => cases h; exact ⟨msg, rfl⟩
  | malformed => cases h

theorem malformed_of_flag {a : CodecAnswer} (h : flagOf a = none) : ∃ bytes, a = .malformed bytes := by
  cases a with
  | answer => cases h
  | malformed bytes => exact ⟨bytes, rfl⟩

/-- What C_MARK flags in the codewords of a PM(2) unit: the third alone fails. -/
theorem mark_flags : ∀ k : Fin 5,
    flagOf (callCodec codecMark (tc1Rows (mark 2))[k]) = some (k != 2) := by decide +kernel

/-- Every codeword of the unit, the third of which fails, and the indices above 4. -/
theorem witness_DecodeMakesOneCodecCall :
    (∀ k : Fin 5, (inDecode (BitVec.ofNat 3 k.val) []).block.cwIdx.toNat = k.val) ∧
    (inDecode 0#3 []).config.codec = codecMark ∧
    (inDecode 0#3 []).block.cw = tc1Rows (mark 2) ∧
    (∀ k : Fin 5, ∃ msg,
      callCodec codecMark (tc1Rows (mark 2))[k] = .answer (k != 2) msg) ∧
    4 < (inDecode 5#3 []).block.cwIdx.toNat ∧ 4 < (inDecode 7#3 []).block.cwIdx.toNat :=
  ⟨by decide +kernel, rfl, rfl, fun k => answer_of_flag (mark_flags k), by decide +kernel, by decide +kernel⟩

/-- A codec that answers two bytes for a row of zeros, which every row is in DECODE on codeword 0 and 4; and a unit of no
bytes. -/
theorem witness_RefusesExactlyOnContractBreaches :
    (machineOf (tc1 codecShort) (blockIn codeDecode) []).config.codec = codecShort ∧
    (machineOf (tc1 codecShort) (blockIn codeDecode) []).block.cw = zeroRows ∧
    (machineOf (tc1 codecShort) (blockIn codeDecode) []).block.cwIdx.toNat = (0 : Fin 5).val ∧
    (machineOf (tc1 codecShort) { blockIn codeDecode with cwIdx := 4#3 } []).block.cwIdx.toNat = (4 : Fin 5).val ∧
    (∀ k : Fin 5, ∃ bytes, callCodec codecShort zeroRows[k] = .malformed bytes) ∧
    (machine (blockIn codeIdle) [.deliver 1#8 []]).agenda = [.deliver 1#8 []] ∧ ([] : List Byte).length ≠ 1279 :=
  ⟨rfl, rfl, rfl, rfl, fun k => malformed_of_flag
    ((by decide +kernel : ∀ k : Fin 5, flagOf (callCodec codecShort zeroRows[k]) = none) k), rfl, by decide⟩

theorem witness_EmitPushesWhenReady :
    (machine (blockIn codeEmit) []).outReady = true ∧
    (setSinkReady false (machine (blockIn codeEmit) [])).outReady = false := ⟨rfl, rfl⟩

theorem witness_ReleaseRemovesTheHeadUnitOnly :
    poll (streams [(1, { queue := [unitOf pz, unitOf pi], ended := false })]) 1#8 = .unit (unitOf pz) ∧
    poll (streams [(255, { queue := [unitOf pi], ended := true })]) 255#8 = .unit (unitOf pi) := by
  simp [poll, sourceIndex, streams, List.lookup, pollStream]

/-- A step that is no reset, in FATAL: SET_INPUT is turned away; and a reset there. -/
theorem witness_FatalIsLeftByResetOnly :
    (∃ s t : State, s.block.state = codeFatal ∧ step s = .next t ∧ ¬ resetMoves s) ∧
    (∃ s : State, s.block.state = codeFatal ∧ resetMoves s) :=
  ⟨⟨machine (blockIn codeFatal) [.memWrite 0 4 0x104#32], _, rfl, rfl, fun ⟨_, h⟩ => by cases h⟩,
   ⟨machine (blockIn codeFatal) [.reset], rfl, ⟨[], rfl⟩⟩⟩

theorem witness_FatalBlockDoesNothing : ∃ s t : State,
    s.block.state = codeFatal ∧ step s = .next t ∧ ¬ resetMoves s ∧ t.block.cmdErr = true :=
  ⟨machine (blockIn codeFatal) [.memWrite 0 4 1#32], _, rfl, rfl, fun ⟨_, h⟩ => (by cases h), by decide +kernel⟩

theorem witness_ReservedStepFaults :
    (orchestratorMoves (machine (blockIn 8#4) []) ∧ 8 ≤ (machine (blockIn 8#4) []).block.state.toNat) ∧
    (orchestratorMoves (machine (blockIn 15#4) []) ∧ 8 ≤ (machine (blockIn 15#4) []).block.state.toNat) ∧
    ∃ t, (machine (blockIn codeFatal) []).block.state.toNat < 8 ∧ step (machine (blockIn codeFatal) []) = .next t :=
  ⟨⟨.inl rfl, by decide +kernel⟩, ⟨.inl rfl, by decide +kernel⟩, ⟨_, by decide +kernel, rfl⟩⟩

theorem witness_StatusShowsTheState :
    (machine (blockIn codeIdle) [.memWrite 0x04 4 0x12345678#32]).agenda = [.memWrite 0x04 4 0x12345678#32] := rfl

/-- A read of any offset of the window may be the next move; the value it must return, at the two ends of the window. -/
theorem witness_AdmittedReadsReturnTheRegister (offset : Nat) :
    (machine (blockIn codeIdle) [.memRead offset 4]).agenda = [.memRead offset 4] ∧
    ((0x00 = 0x00 ∧ (0#32 : Word) = 0#32) ∧ (0x1C = 0x1C ∧ (0#32 : Word) = 0#32)) := ⟨rfl, ⟨rfl, rfl⟩, ⟨rfl, rfl⟩⟩

theorem witness_RejectedAccessesSetCmdErrOnly :
    ¬ (2 = 4 ∧ 0 % 4 = 0 ∧ 0 < 0x20) ∧ ¬ (4 = 4 ∧ 0x1E % 4 = 0 ∧ 0x1E < 0x20) ∧ ¬ (4 = 4 ∧ 0x20 % 4 = 0 ∧ 0x20 < 0x20) ∧
    (machine (blockIn codeIdle) [.memRead 0x20 4]).agenda = [.memRead 0x20 4] ∧
    (machine (blockIn codeIdle) [.memWrite 0 2 1#32]).agenda = [.memWrite 0 2 1#32] := by
  refine ⟨by decide, by decide, by decide, rfl, rfl⟩

theorem witness_IgnoredWritesChangeNothing :
    (0x04 ∈ [0x04, 0x08, 0x0C, 0x10, 0x14, 0x18, 0x1C] ∧
      (machine (blockIn codeIdle) [.memWrite 0x04 4 1#32]).agenda = [.memWrite 0x04 4 1#32]) ∧
    (0x1C ∈ [0x04, 0x08, 0x0C, 0x10, 0x14, 0x18, 0x1C] ∧
      (machine (blockIn codeIdle) [.memWrite 0x1C 4 1#32]).agenda = [.memWrite 0x1C 4 1#32]) :=
  ⟨⟨by decide, rfl⟩, ⟨by decide, rfl⟩⟩

theorem witness_ResetClearsTheBlock :
    (machine (blockIn codeEmit) [.reset, .orchestrator]).agenda = .reset :: [.orchestrator] := rfl

/-- TC1 passes the check on every byte; the broken pair fails it on byte 0. -/
theorem witness_ConfigurationsAreCheckedAtBoot :
    (∀ v : Byte, (tc1Raw codecId).rev[(tc1Raw codecId).fwd[v.toNat].toNat] = v ∧
      (tc1Raw codecId).fwd[(tc1Raw codecId).rev[v.toNat].toNat] = v) ∧
    ¬ (∀ v : Byte, brokenRaw.rev[brokenRaw.fwd[v.toNat].toNat] = v ∧ brokenRaw.fwd[brokenRaw.rev[v.toNat].toNat] = v) := by
  refine ⟨fun v => ⟨tableUndoes_get tc1_rev_undoes_fwd v, tableUndoes_get tc1_fwd_undoes_rev v⟩, fun h => ?_⟩
  have h0 := (h 0#8).1
  revert h0
  decide +kernel

theorem witness_DerandomizeCyclesOverTheFrame : ((1274 : Fin 1275).val = (1019 : Fin 1275).val + 255) := by decide

theorem witness_PassThroughIdentity : ∃ payload : Frame, payload = zeroBytes 1275 := ⟨_, rfl⟩

theorem witness_DeinterleaveLosesNothing : ∃ p q : Frame,
    deinterleave (tc1 codecId) p = deinterleave (tc1 codecId) q := ⟨pi, pi, rfl⟩

theorem witness_CodecWriteLengthDecidesTheRow : (0 < 255 ∧ 254 < 255) := by decide

/-! ### States that meet the invariants -/

/-- A frame in progress in DEINT: the unit of source 1 is in IN_BUF and counted. -/
def inDeint (agenda : List Move) : State :=
  machine { blockIn codeDeint with inBuf := unitOf pi, framesAttempted := 1#32, run := true } agenda

theorem inDeint_control (agenda : List Move) : ControlLegal (inDeint agenda).block where
  stateCode := (by decide : (2#4).toNat ≤ 7)
  cwIdxRange := (by decide : (0#3).toNat ≤ 4)
  pendFailRange := (by decide : (0#3).toNat ≤ 4)
  fatalTellsState := (by decide : (false = true ↔ (2#4) = codeFatal))
  swapInFrame := nofun
  cancelInFrame := nofun
  runWorks := fun _ => (by decide : (2#4) ≠ codeIdle ∧ (2#4) ≠ codeFatal)

theorem inDeint_held (agenda : List Move) : FrameHeld (inDeint agenda) := fun _ => (machine_polls _ _ _).1

theorem inDeint_path (agenda : List Move) : FramePath (inDeint agenda).config (inDeint agenda).block where
  inDecode := fun h => absurd h (by decide : (2#4) ≠ codeDecode)
  inReint := fun h => absurd h (by decide : (2#4) ≠ codeReint)
  inEmit := fun h => absurd h (by decide : (2#4) ≠ codeEmit)
  inRelease := fun h => absurd h (by decide : (2#4) ≠ codeRelease)

theorem inDeint_safe (agenda : List Move) : Safe (inDeint agenda) where
  control := inDeint_control agenda
  counters := {
    atBoundary := fun h => absurd h (by decide +revert : ¬ (false = true))
    inFrame := fun _ => (by decide : (1#32) = 0#32 + 0#32 + 1#32) }
  report := {
    pendFailRange := (by decide : (0#3).toNat ≤ 4)
    cwIdxRange := (by decide : (0#3).toNat ≤ 4)
    word := .inl rfl }
  held := inDeint_held agenda
  path := inDeint_path agenda
  wholeMessages := rfl

/-- The steps the invariants' statements are about: from a safe state with a frame in progress the orchestrator's turn, a
command and a reset each answer a next state. -/
theorem witness_StepsKeepSafety :
    (Safe (inDeint []) ∧ ∃ t, step (inDeint []) = .next t ∧ t.block.state = codeDecode) ∧
    (Safe (inDeint [.memWrite 0 4 3#32]) ∧
      ∃ t, step (inDeint [.memWrite 0 4 3#32]) = .next t ∧ t.block.cancelPending = true) ∧
    (Safe (inDeint [.reset]) ∧ ∃ t, step (inDeint [.reset]) = .next t) :=
  ⟨⟨inDeint_safe _, _, rfl, rfl⟩, ⟨inDeint_safe _, _, rfl, rfl⟩, ⟨inDeint_safe _, _, rfl⟩⟩

theorem witness_StepsKeepControlLegal :
    ControlLegal (inDeint []).block ∧ ∃ t, step (inDeint []) = .next t := ⟨inDeint_control _, _, rfl⟩

theorem witness_StepsKeepCountersBalanced :
    CountersBalance (inDeint []).block ∧ ∃ t, step (inDeint []) = .next t := ⟨(inDeint_safe _).counters, _, rfl⟩

theorem witness_StepsKeepReportsLegal :
    ReportLegal (inDeint []).block ∧ ∃ t, step (inDeint []) = .next t := ⟨(inDeint_safe _).report, _, rfl⟩

theorem witness_StepsKeepTheFrameHeld :
    FrameHeld (inDeint []) ∧ ∃ t, step (inDeint []) = .next t := ⟨inDeint_held _, _, rfl⟩

/-- A machine under TC1 with C_ID, its block after the steps up to EMIT on the PI unit. -/
def inEmit (agenda : List Move) : State :=
  machine { blockIn codeEmit with inBuf := unitOf pi, outBuf := decodedFrame (tc1 codecId) (unitOf pi) } agenda

/-- A machine under TC1 with C_ID in REINT: the five rows of the PI unit corrected. -/
def inReint (agenda : List Move) : State :=
  machine { blockIn codeReint with
    inBuf := unitOf pi
    cw := tc1Rows id
    cc := tabulate 5 fun k => corrected (tc1 codecId) (tc1Rows id)[k] } agenda

/-- No codeword of the PI unit fails under C_ID, and the third of the PM(2) unit fails first under C_MARK. -/
theorem firstFailures :
    firstFailure (tc1 codecId) (codewordsOf (tc1 codecId) (unitOf pi)) = none ∧
    firstFailure (tc1 codecMark) (codewordsOf (tc1 codecMark) (unitOf (pm 2))) = some 2 := by
  rw [pi, pm, codewordsOf_tc1, codewordsOf_tc1]
  decide +kernel

theorem inEmit_path (agenda : List Move) : FramePath (inEmit agenda).config (inEmit agenda).block where
  inDecode := fun e => absurd e (by decide : codeEmit ≠ codeDecode)
  inReint := fun e => absurd e (by decide : codeEmit ≠ codeReint)
  inEmit := fun _ => ⟨firstFailures.1, rfl⟩
  inRelease := fun e => absurd e (by decide : codeEmit ≠ codeRelease)

theorem id_correctable : ∀ k : Fin 5, correctable (tc1 codecId) (tc1Rows id)[k] = true := by decide +kernel

theorem inReint_path (agenda : List Move) : FramePath (inReint agenda).config (inReint agenda).block where
  inDecode := fun e => absurd e (by decide : codeReint ≠ codeDecode)
  inReint := fun _ => ⟨(codewordsOf_tc1 codecId id).symm, fun k _ =>
    ⟨id_correctable k, by simp [inReint, machineOf, State.withBlock, State.powerOn]⟩⟩
  inEmit := fun e => absurd e (by decide : codeReint ≠ codeEmit)
  inRelease := fun e => absurd e (by decide : codeReint ≠ codeRelease)

theorem inDecode_path (agenda : List Move) : FramePath (inDecode 0#3 agenda).config (inDecode 0#3 agenda).block where
  inDecode := fun _ => ⟨(codewordsOf_tc1 codecMark (mark 2)).symm, fun _ h => absurd h (Nat.not_lt_zero _)⟩
  inReint := fun e => absurd e (by decide : codeDecode ≠ codeReint)
  inEmit := fun e => absurd e (by decide : codeDecode ≠ codeEmit)
  inRelease := fun e => absurd e (by decide : codeDecode ≠ codeRelease)

/-- A frame dropped at codeword 2, in RELEASE. -/
def inRelease (agenda : List Move) : State :=
  machineOf (tc1 codecMark) { blockIn codeRelease with
    inBuf := unitOf (pm 2), pendKind := .dropped, pendFail := 2#3 } agenda

theorem path_of_drop {c : Config} {b : Block} {k : Fin 5} (hs : b.state = codeRelease)
    (hf : firstFailure c (codewordsOf c b.inBuf) = some k) (hd : b.pendKind = .dropped)
    (hp : b.pendFail = BitVec.ofNat 3 k.val) : FramePath c b where
  inDecode := fun e => absurd (hs.symm.trans e) (by decide)
  inReint := fun e => absurd (hs.symm.trans e) (by decide)
  inEmit := fun e => absurd (hs.symm.trans e) (by decide)
  inRelease := fun _ => by rw [hf]; exact ⟨hd, hp⟩

theorem inRelease_path (agenda : List Move) : FramePath (tc1 codecMark) (inRelease agenda).block :=
  path_of_drop (k := 2) rfl firstFailures.2 rfl rfl

/-- DECODE on codeword 0, REINT, EMIT, and RELEASE of a dropped frame; and a step. -/
theorem witness_StepsKeepTheFramePath :
    (FramePath (inDecode 0#3 []).config (inDecode 0#3 []).block ∧ (inDecode 0#3 []).config.codecWriteLen = 255) ∧
    (FramePath (inReint []).config (inReint []).block ∧ (inReint []).config.codecWriteLen = 255) ∧
    (FramePath (inEmit []).config (inEmit []).block ∧ (inEmit []).config.codecWriteLen = 255) ∧
    (FramePath (tc1 codecMark) (inRelease []).block ∧ (inRelease []).config = tc1 codecMark ∧ (inRelease []).config.codecWriteLen = 255) ∧
    ∃ t, step (inRelease []) = .next t :=
  ⟨⟨inDecode_path _, rfl⟩, ⟨inReint_path _, rfl⟩, ⟨inEmit_path _, rfl⟩, ⟨inRelease_path _, rfl, rfl⟩, _, rfl⟩

/-- The orchestrator in EMIT with the decoded frame, whose turn pushes it. -/
theorem witness_TheSinkGainsDecodedUnitsOnly :
    FrameHeld (inEmit []) ∧ FramePath (inEmit []).config (inEmit []).block ∧
    ∃ t, step (inEmit []) = .next t ∧ t.sink.length = 1 :=
  ⟨fun _ => (machine_polls _ _ _).1, inEmit_path _, _, rfl, rfl⟩

/-! ### Steps that meet the hypotheses of the remaining statements -/

theorem witness_CmdErrIsSticky :
    (∃ s t : State, step s = .next t ∧ s.block.cmdErr = true ∧ ¬ resetMoves s) ∧
    (∃ s t : State, step s = .next t ∧ s.block.cmdErr = false ∧ t.block.cmdErr = true) ∧
    (∃ s t : State, step s = .next t ∧ t.events = s.events ++ [.hostAccessError]) :=
  ⟨⟨machine { blockIn codeIdle with cmdErr := true } [.memRead 4 4], _, rfl, rfl, fun ⟨_, h⟩ => by cases h⟩,
   ⟨machine (blockIn codeIdle) [.memWrite 0 4 5#32], _, rfl, rfl, by decide +kernel⟩,
   ⟨machine (blockIn codeIdle) [.memRead 2 4], _, rfl, by decide +kernel⟩⟩

theorem witness_SourceIsReplacedAtBoundariesOnly :
    (∃ s t : State, step s = .next t ∧ t.block.srcId ≠ s.block.srcId ∧ ¬ resetMoves s ∧ s.block.atBoundary = true) ∧
    (∃ s t : State, step s = .next t ∧ t.block.srcId ≠ s.block.srcId ∧ ¬ resetMoves s ∧ s.block.state = codeRelease) :=
  ⟨⟨machine (blockIn codeFetch) [.memWrite 0 4 0x204#32], _, rfl, by decide +kernel, fun ⟨_, h⟩ => (by cases h), rfl⟩,
   ⟨machine { blockIn codeRelease with swapPending := true, pendSrc := 2#8 } [], _, rfl, by decide +kernel,
     fun ⟨_, h⟩ => (by cases h), rfl⟩⟩

/-- CANCEL written while the sink holds EMIT. -/
theorem witness_BackpressureHoldsEmit : ∃ s t : State,
    s.block.state = codeEmit ∧ s.outReady = false ∧ step s = .next t ∧ ¬ resetMoves s ∧ t.block.cancelPending = true :=
  ⟨setSinkReady false (machine (blockIn codeEmit) [.memWrite 0 4 3#32]), _, rfl, rfl, rfl,
    fun ⟨_, h⟩ => (by cases h), by decide +kernel⟩

theorem witness_ReportsChangeInFetchAndReleaseOnly :
    (∃ s t : State, step s = .next t ∧ ¬ resetMoves s ∧ t.block.framesAttempted ≠ s.block.framesAttempted) ∧
    (∃ s t : State, step s = .next t ∧ ¬ resetMoves s ∧ t.block.framesOk ≠ s.block.framesOk) ∧
    (∃ s t : State, step s = .next t ∧ ¬ resetMoves s ∧ t.block.lastResult = resultEos) :=
  ⟨⟨machine (blockIn codeFetch) [], _, rfl, fun ⟨_, h⟩ => (by cases h), by decide +kernel⟩,
   ⟨machine (blockIn codeRelease) [], _, rfl, fun ⟨_, h⟩ => (by cases h), by decide +kernel⟩,
   ⟨machine { blockIn codeFetch with srcId := 0#8 } [], _, rfl, fun ⟨_, h⟩ => (by cases h), by decide +kernel⟩⟩

theorem witness_AtMostOneEventAStep :
    ∃ s t : State, step s = .next t ∧ t.events = s.events ++ [.illegalCommand 5#32] :=
  ⟨machine (blockIn codeIdle) [.memWrite 0 4 5#32], _, rfl, by decide +kernel⟩

theorem witness_HeaderBytesInfluenceNothing :
    (∃ t, step (inDeint []) = .next t) ∧ (∃ f, step (machine (blockIn 8#4) []) = .fault f) ∧
    (∃ r, step (machine (blockIn codeIdle) [.deliver 1#8 []]) = .refused r) := ⟨⟨_, rfl⟩, ⟨_, rfl⟩, ⟨_, rfl⟩⟩

theorem keepsPortContract_of_flag {c : Config} {cw : Codeword} (h : (flagOf (callCodec c.codec cw)).isSome = true) :
    keepsPortContract c cw := by
  obtain ⟨ok, h⟩ := Option.isSome_iff_exists.mp h
  exact ⟨ok, answer_of_flag h⟩

/-- A cycle of each kind: the PI unit under C_ID, no codeword of which fails, and under a codec that fails codeword 4. -/
def codecLast : CodecBinding where
  handle := 0
  observed := (List.range 5).map fun k => echoes (k != 4) (tc1Row id k)

theorem witness_ACycleDecodesOrDropsItsUnit (codec : CodecBinding) (hc : codec = codecId ∨ codec = codecLast) :
    (machineOf (tc1 codec) (blockIn codeFetch) []).agenda = [] ∧
    (machineOf (tc1 codec) (blockIn codeFetch) []).block.state = codeFetch ∧
    (machineOf (tc1 codec) (blockIn codeFetch) []).outReady = true ∧
    poll (machineOf (tc1 codec) (blockIn codeFetch) []).sources 1#8 = .unit (unitOf pi) ∧
    (tc1 codec).codecWriteLen = 255 ∧
    (∀ k : Fin 5, keepsPortContract (tc1 codec) (codewordsOf (tc1 codec) (unitOf pi))[k]) ∧
    firstFailure (tc1 codec) (codewordsOf (tc1 codec) (unitOf pi)) = (if codec = codecId then none else some 4) := by
  refine ⟨rfl, rfl, rfl, (machine_polls _ _ _).1, rfl, fun k => keepsPortContract_of_flag ?_, ?_⟩
  · rw [pi, codewordsOf_tc1]
    rcases hc with rfl | rfl
    · exact (by decide +kernel : ∀ k : Fin 5, (flagOf (callCodec codecId (tc1Rows id)[k])).isSome = true) k
    · exact (by decide +kernel : ∀ k : Fin 5, (flagOf (callCodec codecLast (tc1Rows id)[k])).isSome = true) k
  · rw [pi, codewordsOf_tc1]
    rcases hc with rfl | rfl
    · rw [if_pos rfl]
      exact (by decide +kernel : firstFailure (tc1 codecId) (tc1Rows id) = none)
    · rw [if_neg (fun h => absurd (congrArg (fun c => c.observed.map (·.ok)) h) (by decide +kernel))]
      exact (by decide +kernel : firstFailure (tc1 codecLast) (tc1Rows id) = some 4)

theorem witness_AnEndOfStreamCycleIsOneStep :
    orchestratorMoves (machine { blockIn codeFetch with srcId := 255#8 } []) ∧
    poll (machine { blockIn codeFetch with srcId := 255#8 } []).sources 255#8 = .ended :=
  ⟨.inl rfl, (machine_polls _ _ _).2.2.1⟩

/-- A unit for source 1 and one for source 255, the end of source 3, and the sink turning unready. -/
theorem witness_EnvironmentMovesChangeTheirPortOnly (src : BitVec 8) (u : RawUnit) :
    (machine (blockIn codeFetch) [.deliver src u.toList]).agenda = [.deliver src u.toList] ∧
    (machine (blockIn codeFetch) [.deliver src u.toList]).sources[0].ended = false ∧
    (machine (blockIn codeFetch) [.deliver src u.toList]).sources[254].ended = true ∧
    (machine (blockIn codeFetch) [.endStream 3#8]).agenda = [.endStream 3#8] ∧
    (machine (blockIn codeFetch) [.sinkReady false]).agenda = [.sinkReady false] := by
  simp [machineOf, State.withBlock, State.powerOn, streams, List.lookup]

/-- A CANCEL written in the first and in the last step of a frame, and the orchestrator's move in RELEASE. -/
theorem witness_OnlyReleaseEndsAFrame :
    (∃ s t : State, s.block.inProgress = true ∧ step s = .next t ∧ ¬ resetMoves s ∧ t.block.cancelPending = true ∧
      s.block.state = codeDeint) ∧
    (∃ s t : State, s.block.inProgress = true ∧ step s = .next t ∧ ¬ resetMoves s ∧ t.block.cancelPending = true ∧
      s.block.state = codeRelease) ∧
    (∃ s t : State, s.block.inProgress = true ∧ step s = .next t ∧ ¬ resetMoves s ∧ t.block.inProgress = false) :=
  ⟨⟨machine (blockIn codeDeint) [.memWrite 0 4 3#32], _, rfl, rfl, fun ⟨_, h⟩ => (by cases h), by decide +kernel, rfl⟩,
   ⟨machine (blockIn codeRelease) [.memWrite 0 4 3#32], _, rfl, rfl, fun ⟨_, h⟩ => (by cases h), by decide +kernel, rfl⟩,
   ⟨machine (blockIn codeRelease) [], _, rfl, rfl, fun ⟨_, h⟩ => (by cases h), by decide +kernel⟩⟩

theorem witness_StepsKeepTheConfiguration : ∃ t, step (machineOf tc1Failed (blockIn codeIdle) [.reset]) = .next t := ⟨_, rfl⟩

end Sys2Proof.Tests
end

section
/-!
PROOF. STATUS as the host sees it (spec/10_state.md R25): the fields of the word, the write that STATUS ignores, and the word
after reset.
-/

namespace Sys2Proof.Machine

/-! ## The fields of STATUS -/

theorem readRegister_status (b : Block) : readRegister b 0x04 = statusWord b := rfl

/-- STATUS is one concatenation, so that each of its parts is the slice that starts where the parts below it end: dropping
those parts one by one leaves the part at the bottom (or, for PEND_SRC, all that is left). -/
theorem statusWord_slices (b : Block) :
    (statusWord b).extractLsb' 0 4 = b.state ∧
    (statusWord b).extractLsb' 4 3 = b.cwIdx ∧
    (statusWord b).extractLsb' 7 1 = BitVec.ofBool b.run ∧
    (statusWord b).extractLsb' 8 1 = BitVec.ofBool b.fatal ∧
    (statusWord b).extractLsb' 9 1 = BitVec.ofBool b.swapPending ∧
    (statusWord b).extractLsb' 10 1 = BitVec.ofBool b.cancelPending ∧
    (statusWord b).extractLsb' 11 1 = BitVec.ofBool b.cmdErr ∧
    (statusWord b).extractLsb' 12 4 = 0#4 ∧
    (statusWord b).extractLsb' 16 8 = b.srcId ∧
    (statusWord b).extractLsb' 24 8 = b.pendSrc := by
  refine ⟨BitVec.extractLsb'_append_eq_right, ?_, ?_, ?_, ?_, ?_, ?_, ?_, ?_, ?_⟩
  all_goals
    -- The width of STATUS is written 32, not as a sum, so that the lowest part, STATE, is dropped by unification.
    refine (BitVec.extractLsb'_append_eq_of_le (by decide)).trans ?_
    simp only [BitVec.extractLsb'_append_eq_of_le, BitVec.extractLsb'_append_eq_right, BitVec.extractLsb'_eq_self,
      Nat.reduceSub, Nat.reduceLeDiff]

/-- A flag is the bit at which a slice of one bit holds it. -/
theorem getElem_of_slice {n i : Nat} {w : BitVec n} {flag : Bool} (hi : i < n)
    (h : w.extractLsb' i 1 = BitVec.ofBool flag) : w[i] = flag := by
  rw [BitVec.getElem_eq_extractLsb', h]
  cases flag <;> rfl

/-! ## Writes to the registers that are not CMD -/

/-- A step that makes a host write, with the move taken off the agenda. -/
theorem step_memWrite {s : State} {offset n : Nat} {v : Word} {rest : List Move}
    (hm : s.agenda = .memWrite offset n v :: rest) : step s = hostWrite offset n v (s.withAgenda rest) := by
  simp only [step, hm, makeMove]

/-- An admitted write is ignored everywhere but at CMD (spec/20_memory.md R38). -/
theorem hostWrite_ignored {offset n : Nat} (ha : admitted offset n = true) (h0 : offset ≠ 0) (v : Word) (s : State) :
    hostWrite offset n v s = .next s := by
  have hc : classifyWrite offset n v = .ignored := by rw [classifyWrite, if_pos ha, if_neg h0]
  rw [hostWrite, hc]

/-! ## STATUS after reset -/

/-- After reset only STATE and FATAL can be set, and both tell whether the codec was constructed (spec/70_reset_and_hazards.md
R127). -/
theorem statusWord_reset (c : Config) :
    statusWord (Block.reset c) = if c.codecConfigOk then 0x00000000#32 else 0x00000107#32 := by
  cases hc : c.codecConfigOk <;> simp [statusWord, Block.reset, hc]

/-- Settles O27: the fields of the word, the ignored write at offset 4, and the word after reset. -/
theorem statusShowsTheState : Obligations.StatusShowsTheState := by
  refine ⟨fun b => ?_, fun s v rest hm => ?_, fun c => ?_⟩
  · rw [readRegister_status]
    obtain ⟨hState, hCwIdx, hRun, hFatal, hSwap, hCancel, hErr, hReserved, hSrc, hPend⟩ := statusWord_slices b
    exact ⟨hState, hCwIdx, getElem_of_slice _ hRun, getElem_of_slice _ hFatal, getElem_of_slice _ hSwap,
      getElem_of_slice _ hCancel, getElem_of_slice _ hErr, hReserved, hSrc, hPend⟩
  · exact (step_memWrite hm).trans (hostWrite_ignored rfl (by decide) v _)
  · rw [readRegister_status, statusWord_reset]

end Sys2Proof.Machine
end

section
/-!
PROOF. The admission rule of the register window (spec/20_memory.md R37, R38): what a rejected access does, and which
admitted accesses have nothing to read or nothing to write.
-/

namespace Sys2Proof.Machine

/-! ## Which accesses are admitted -/

/-- The model's check is the rule R37 states. -/
theorem admitted_iff {offset n : Nat} : admitted offset n = true ↔ n = 4 ∧ offset % 4 = 0 ∧ offset < 0x20 := by
  simp only [admitted, Bool.and_eq_true, decide_eq_true_eq, and_assoc]

/-! ## Rejected accesses -/

/-- A step that makes a host read, with the move taken off the agenda. -/
theorem step_memRead {s : State} {offset n : Nat} {rest : List Move} (hm : s.agenda = .memRead offset n :: rest) :
    step s = .next (hostRead offset n (s.withAgenda rest)) := by
  simp only [step, hm, makeMove]

/-- The whole of what a rejection does: `cmd_err` is set and the event is recorded. -/
theorem rejectAccess_eq (s : State) : rejectAccess s =
    { s with block := { s.block with cmdErr := true }, events := s.events ++ [.hostAccessError] } := rfl

/-- A rejected read gives the host 0, whatever the register at its offset holds. -/
theorem hostRead_rejected {offset n : Nat} (ha : ¬ admitted offset n = true) (s : State) :
    hostRead offset n s = rejectAccess (returnToHost 0#32 s) := by
  have hv : readValue s.block offset n = 0#32 := if_neg ha
  rw [hostRead, if_neg ha, hv]

/-- A rejected write is not decoded as a command, at CMD's offset either (spec/60_exceptions.md R116). -/
theorem hostWrite_rejected {offset n : Nat} (ha : ¬ admitted offset n = true) (v : Word) (s : State) :
    hostWrite offset n v s = .next (rejectAccess s) := by
  have hc : classifyWrite offset n v = .rejected := if_neg ha
  rw [hostWrite, hc]

/-- Settles O29: the read returns 0 and is rejected, the write is rejected. -/
theorem rejectedAccessesSetCmdErrOnly : Obligations.RejectedAccessesSetCmdErrOnly := by
  intro s offset n rest hbad
  have ha : ¬ admitted offset n = true := fun h => hbad (admitted_iff.mp h)
  refine ⟨fun hm => ?_, fun v hm => ?_⟩
  · rw [step_memRead hm, hostRead_rejected ha, rejectAccess_eq]
    rfl
  · rw [step_memWrite hm, hostWrite_rejected ha, rejectAccess_eq]
    rfl

/-! ## Admitted accesses without an effect -/

/-- An admitted read returns the register of its offset. -/
theorem readValue_admitted {offset n : Nat} (ha : admitted offset n = true) (b : Block) :
    readValue b offset n = readRegister b offset := if_pos ha

/-- CMD and the two reserved offsets hold nothing to read (spec/20_memory.md R38). -/
theorem readRegister_empty {offset : Nat} (ho : offset = 0x00 ∨ offset = 0x18 ∨ offset = 0x1C) (b : Block) :
    readRegister b offset = 0#32 := by
  rcases ho with rfl | rfl | rfl <;> rfl

/-- The read-only registers and the reserved offsets: admitted offsets other than CMD's. -/
theorem admitted_of_mem_window {offset : Nat} (ho : offset ∈ [0x04, 0x08, 0x0C, 0x10, 0x14, 0x18, 0x1C]) :
    admitted offset 4 = true ∧ offset ≠ 0 := by
  revert offset
  decide

/-- Settles O30: three reads of nothing, and the writes that the window ignores. -/
theorem ignoredWritesChangeNothing : Obligations.IgnoredWritesChangeNothing := by
  refine ⟨fun b => ⟨?_, ?_, ?_⟩, fun s offset v rest ho hm => ?_⟩
  · rw [readValue_admitted rfl, readRegister_empty (.inr (.inl rfl))]
  · rw [readValue_admitted rfl, readRegister_empty (.inr (.inr rfl))]
  · rw [readValue_admitted rfl, readRegister_empty (.inl rfl)]
  · obtain ⟨hAdmitted, hNotCmd⟩ := admitted_of_mem_window ho
    exact (step_memWrite hm).trans (hostWrite_ignored hAdmitted hNotCmd v _)

end Sys2Proof.Machine
end

section
/-!
PROOF. Command words (spec/30_encoding.md R58, spec/43_io_adapter_commands.md R105): which of them the decoder turns down, and
that a word turned away, as illegal or in a state that does not accept its command, sets `cmd_err` and no more.
-/

namespace Sys2Proof.Machine

/-! ## Which words decode -/

/-- A word whose RSV is not 0 decodes to nothing, whatever its OP. -/
theorem decodeCommand_of_reserved {w : Word} (hr : fieldRsv w ≠ 0) : decodeCommand w = .error .reservedFieldNotZero :=
  if_neg hr

/-- Of the words whose RSV is 0 those decode whose OP is assigned and whose ARG, beside OP 4, is 0. -/
theorem exists_decodeCommand_ok_iff {w : Word} (hr : fieldRsv w = 0) :
    (∃ i, decodeCommand w = .ok i) ↔ (fieldOp w).toNat < 5 ∧ ((fieldOp w).toNat = 4 ∨ fieldArg w = 0) := by
  rw [decodeCommand, if_pos hr]
  split
  -- SET_INPUT takes every ARG
  case h_5 hop => simp [hop]
  -- OP is none of 0 to 4
  case h_6 =>
    have hop : ¬ (fieldOp w).toNat < 5 := by grind
    simp [hop]
  -- NOP, PROCESS_ONE, RUN and CANCEL take no ARG
  all_goals
    next hop => by_cases ha : fieldArg w = 0#8 <;> simp [hop, ha]

/-- The decoder turns down exactly the words R58 lists. -/
theorem illegalWord_iff (w : Word) : illegalWord w ↔ ¬ ∃ i, decodeCommand w = .ok i := by
  unfold illegalWord
  by_cases hr : fieldRsv w = 0
  · have hop : fieldOp w = 4#8 ↔ (fieldOp w).toNat = 4 := BitVec.toNat_inj.symm
    simp only [exists_decodeCommand_ok_iff hr, not_and_or, not_or, not_lt, ne_eq, hop, hr, not_true_eq_false,
      false_or]
  · exact iff_of_true (.inr (.inl hr)) (by simp [decodeCommand_of_reserved hr])

/-- The word of SET_INPUT is three fields side by side, and the decoder reads the middle one. -/
theorem decodeCommand_setInputWord (src : BitVec 8) : decodeCommand (setInputWord src) = .ok (.setInput src) := by
  have hop : fieldOp (setInputWord src) = 4#8 := BitVec.extractLsb'_append_eq_right
  have harg : fieldArg (setInputWord src) = src :=
    (BitVec.extractLsb'_append_eq_of_le (by decide)).trans BitVec.extractLsb'_append_eq_right
  have hrsv : fieldRsv (setInputWord src) = 0 :=
    (BitVec.extractLsb'_append_eq_of_le (by decide)).trans (BitVec.extractLsb'_append_eq_of_le (by decide))
  simp [decodeCommand, hop, harg, hrsv]

/-! ## Commands in states that do not accept them -/

theorem exec_processOne_turnedAway {s : State} (hs : s.block.state ≠ codeIdle) :
    exec .processOne s = .next (turnAway 0x00000001#32 s) :=
  congrArg Host.Outcome.next (if_neg hs)

theorem exec_run_turnedAway {s : State} (hs : s.block.state ≠ codeIdle) :
    exec .run s = .next (turnAway 0x00000002#32 s) :=
  congrArg Host.Outcome.next (if_neg hs)

theorem exec_cancel_turnedAway {s : State} (hs : s.block.state = codeFatal) :
    exec .cancel s = .next (turnAway 0x00000003#32 s) := by
  simp [exec, execCancel, Block.inProgress, hs]

theorem exec_setInput_turnedAway {s : State} (hs : s.block.state = codeFatal) (src : BitVec 8) :
    exec (.setInput src) s = .next (turnAway (setInputWord src) s) := by
  simp [exec, execSetInput, Block.atBoundary, Block.inProgress, hs]

/-! ## The write to CMD -/

theorem hostWrite_of_command {w : Word} {i : Instr} (hd : decodeCommand w = .ok i) (s : State) :
    hostWrite 0 4 w s = exec i s := by
  have hc : classifyWrite 0 4 w = .command i := by simp [classifyWrite, admitted, hd]
  rw [hostWrite, hc]

theorem hostWrite_of_illegalWord {w : Word} (hw : illegalWord w) (s : State) :
    hostWrite 0 4 w s = .next (turnAway w s) := by
  have hc : classifyWrite 0 4 w = .illegal w := by
    rcases hd : decodeCommand w with e | i
    · simp [classifyWrite, admitted, hd]
    · exact absurd ⟨i, hd⟩ ((illegalWord_iff w).mp hw)
  rw [hostWrite, hc]

/-- The words a block turns away: the illegal ones, and those of commands its `state` does not accept
(spec/43_io_adapter_commands.md R100). -/
def turnedAwayBy (b : Block) (w : Word) : Prop :=
  illegalWord w ∨
  (w ∈ [0x00000001#32, 0x00000002#32] ∧ b.state ≠ codeIdle) ∨
  ((w = 0x00000003#32 ∨ ∃ src, w = setInputWord src) ∧ b.state = codeFatal)

theorem hostWrite_turnedAway {w : Word} {s : State} (h : turnedAwayBy s.block w) :
    hostWrite 0 4 w s = .next (turnAway w s) := by
  rcases h with hw | ⟨hw, hs⟩ | ⟨rfl | ⟨src, rfl⟩, hs⟩
  · exact hostWrite_of_illegalWord hw s
  · rcases List.mem_pair.mp hw with rfl | rfl
    · exact (hostWrite_of_command rfl s).trans (exec_processOne_turnedAway hs)
    · exact (hostWrite_of_command rfl s).trans (exec_run_turnedAway hs)
  · exact (hostWrite_of_command rfl s).trans (exec_cancel_turnedAway hs)
  · exact (hostWrite_of_command (decodeCommand_setInputWord src) s).trans (exec_setInput_turnedAway hs src)

/-- The whole of what turning a word away does. -/
theorem turnAway_eq (w : Word) (s : State) : turnAway w s =
    { s with block := { s.block with cmdErr := true }, events := s.events ++ [.illegalCommand w] } := rfl

/-- Settles O3: the words the decoder turns down, and the one effect of every word turned away. -/
theorem illegalWordsSetCmdErrOnly : Obligations.IllegalWordsSetCmdErrOnly := by
  refine ⟨illegalWord_iff, fun s w rest hm h => ?_⟩
  rw [step_memWrite hm, hostWrite_turnedAway (s := s.withAgenda rest) h, turnAway_eq]
  rfl

end Sys2Proof.Machine
end

section
/-!
PROOF. The reserved step codes (spec/30_encoding.md R60): they fault on the orchestrator's turn, and every move of every agent
keeps `state` among the codes 0 to 7.
-/

namespace Sys2Proof.Machine

/-! ## The orchestrator's turn on a reserved code -/

/-- A step that is the orchestrator's turn, with the move taken off the agenda if one was placed. -/
theorem step_of_orchestratorMoves {s : State} (hm : orchestratorMoves s) : step s = orchestratorTurn s.pop := by
  rcases hm with ha | ⟨rest, ha⟩
  · have hp : s.pop = s := by rw [State.pop, ha, List.tail_nil, ← ha, withAgenda_self]
    simp only [step, ha, hp]
  · simp only [step, ha, makeMove, State.pop, List.tail_cons]

/-- Above 7 a step code selects the row RESERVED_STEP. -/
theorem decodeStep_reserved {code : BitVec 4} (h : 8 ≤ code.toNat) : decodeStep code = .reservedStep code := by
  revert code
  decide

theorem exec_reservedStep (code : BitVec 4) (s : State) : exec (.reservedStep code) s = .fault .badState := rfl

/-! ## The codes the block's updates write -/

/-- The end of a cycle leaves the block in IDLE or in FETCH. -/
theorem endCycle_state (b : Block) : (endCycle b).state = codeIdle ∨ (endCycle b).state = codeFetch := by
  unfold endCycle
  split
  · exact .inl rfl
  · exact .inr rfl

/-- Reset leaves the block in IDLE or in FATAL. -/
theorem reset_state (c : Config) : (Block.reset c).state = codeIdle ∨ (Block.reset c).state = codeFatal := by
  cases hc : c.codecConfigOk <;> simp [Block.reset, hc]

/-- DECODE stays, or goes on to REINT. -/
theorem acceptCodeword_state (k : Fin 5) (msg : Codeword) (s : State) :
    (acceptCodeword k msg s).block.state = codeReint ∨ (acceptCodeword k msg s).block.state = s.block.state := by
  by_cases hk : s.block.cwIdx = 4#3 <;> simp [acceptCodeword, hk]

/-! ## No move writes a reserved code -/

/-- The step rules write the codes of R55 only. -/
theorem TurnEffect.state_lt {s t : State} (h : TurnEffect s t) (hs : s.block.state.toNat < 8) :
    t.block.state.toNat < 8 := by
  cases h with
  | idle | fatal | inputWaits | sinkWaits => exact hs
  | inputEnded => exact (by decide : codeIdle.toNat < 8)
  | acquired => exact (by decide : codeDeint.toNat < 8)
  | deinterleaved => exact (by decide : codeDecode.toNat < 8)
  | reinterleaved => exact (by decide : codeEmit.toNat < 8)
  | uncorrectable | emitted => exact (by decide : codeRelease.toNat < 8)
  | corrected k msg =>
    rcases acceptCodeword_state k msg (recordCall s.block.cwIdx s.block.cw[k] s) with he | he <;> rw [he]
    · decide
    · exact hs
  | released =>
    rcases endCycle_state (applySwap (publishResult s.block)) with he | he <;>
      rw [releaseStep, withBlock_block, he] <;> decide

/-- A command starts a cycle in FETCH, ends one in IDLE, or leaves `state` alone. -/
theorem CommandEffect.state_lt {s t : State} (h : CommandEffect s t) (hs : s.block.state.toNat < 8) :
    t.block.state.toNat < 8 := by
  cases h with
  | nothing | turnedAway | cancelDeferred | swapped | swapDeferred => exact hs
  | started => exact (by decide : codeFetch.toNat < 8)
  | cancelled => exact (by decide : codeIdle.toNat < 8)

/-- Beside the orchestrator and the commands only a reset writes `state`. -/
theorem StepEffect.state_lt {s t : State} (h : StepEffect s t) (hs : s.block.state.toNat < 8) :
    t.block.state.toNat < 8 := by
  cases h with
  | turn _ he => exact he.state_lt hs
  | command _ _ _ _ _ _ he => exact he.state_lt hs
  | wasReset =>
    rcases reset_state s.pop.config with he | he <;> rw [resetBlock_block, he] <;> decide
  | turnedAway | ignored | rejected | read | readRejected | delivered | streamEnded | sinkSet => exact hs

/-- Settles O24: the fault of the row, the fault on the orchestrator's turn, and the codes a step writes. -/
theorem reservedStepFaults : Obligations.ReservedStepFaults := by
  refine ⟨exec_reservedStep, fun s hm hr => ?_, fun s t hs h => (step_next_effect h).state_lt hs⟩
  have hd : decodeStep s.pop.block.state = .reservedStep s.block.state := decodeStep_reserved hr
  rw [step_of_orchestratorMoves hm, orchestratorTurn, hd, exec_reservedStep]

end Sys2Proof.Machine
end

section
/-!
PROOF. The stride, the translate tables and the derandomiser (spec/40_interleave_translate.md R66, R69 to R71): each of them
undone, and the period of the derandomiser's index.
-/

namespace Sys2Proof.Machine

/-! ## The stride (spec/40_interleave_translate.md R69) -/

/-- Two five-row arrays with equal bytes at every codeword and position are equal. -/
theorem rows_ext {a b : Rows} (h : ∀ (k : Fin 5) (p : Fin 255), a[k][p] = b[k][p]) : a = b :=
  Vector.ext fun k hk => Vector.ext fun p hp => h ⟨k, hk⟩ ⟨p, hp⟩

/-- Index `i` goes to row `i mod 5`, place `i div 5`, and `5 (i div 5) + i mod 5` is `i` again. -/
theorem unstride_stride (b : Frame) : unstride (stride b) = b := by
  have hget (i : Fin 1275) : (unstride (stride b))[i] = b[i] := by
    simp only [unstride_get, stride_get, payloadIndex_codewordOf_positionOf]
  exact Vector.ext fun i hi => hget ⟨i, hi⟩

/-- Row `k`, place `p` goes to index `5 p + k`, whose remainder and quotient by 5 are `k` and `p` again. -/
theorem stride_unstride (rows : Rows) : stride (unstride rows) = rows :=
  rows_ext fun k p => by
    simp only [stride_get, unstride_get, codewordOf_payloadIndex, positionOf_payloadIndex]

/-- Settles O34: the index maps of the stride undo each other in both directions. -/
theorem strideRoundTrip : Obligations.StrideRoundTrip := ⟨unstride_stride, stride_unstride⟩

/-! ## The translate tables (spec/40_interleave_translate.md R70) -/

/-- Settles O35: the inverse law a well-formed configuration carries. -/
theorem tablesUndoEachOther : Obligations.TablesUndoEachOther :=
  fun c v => ⟨revXlate_fwdXlate c v, fwdXlate_revXlate c v⟩

/-! ## The derandomiser (spec/40_interleave_translate.md R66, R71) -/

/-- The sequence byte of one position, XORed in twice, cancels. -/
@[simp] theorem derandomize_derandomize (c : Config) (i : Fin 1275) (b : Byte) :
    derandomize c i (derandomize c i b) = b := by
  rw [derandomize, derandomize, BitVec.xor_assoc, BitVec.xor_self, BitVec.xor_zero]

/-- Settles O36: the sequence byte depends on the position alone, so the second XOR undoes the first. -/
theorem derandomizeIsAnInvolution : Obligations.DerandomizeIsAnInvolution := derandomize_derandomize

/-- The derandomiser's index has period 255. -/
theorem prbsIndex_add_period {i j : Fin 1275} (h : j.val = i.val + 255) : prbsIndex j = prbsIndex i :=
  Fin.ext (by simp only [prbsIndex, h, Nat.add_mod_right])

/-- The output position enters the derandomiser through its index only. -/
theorem derandomize_congr {i j : Fin 1275} (h : prbsIndex j = prbsIndex i) (c : Config) (b : Byte) :
    derandomize c j b = derandomize c i b := by
  simp only [derandomize, h]

/-- Settles O37: the sequence byte is the one at `i mod 255`, and a period later the index is the same. -/
theorem derandomizeCyclesOverTheFrame : Obligations.DerandomizeCyclesOverTheFrame :=
  fun c _ b => ⟨rfl, fun _ hj => derandomize_congr (prbsIndex_add_period hj) c b⟩

end Sys2Proof.Machine
end

section
/-!
PROOF. The two steps that move a whole frame: DEINT fills the codewords and REINT builds the output frame
(spec/42_orchestrator.md R87, R89; spec/40_interleave_translate.md R65, R67).
-/

namespace Sys2Proof.Machine

/-! ## DEINT (spec/42_orchestrator.md R87) -/

theorem exec_deint (s : State) : exec .deint s = .next (deintStep s) := rfl

/-- DEINTERLEAVE in the direction R65 states it, by payload byte: `deinterleave_get` at the place of byte `i`, whose index
`5 (i div 5) + i mod 5` is `i` again. -/
theorem deinterleave_get_of_payload (c : Config) (b : Frame) (i : Fin 1275) :
    (deinterleave c b)[codewordOf i][positionOf i] = fwdXlate c b[i] := by
  simp only [deinterleave_get, payloadIndex_codewordOf_positionOf]

/-- The codewords of a unit by unit byte: payload byte `i` stands behind the four bytes of the header. -/
theorem codewordsOf_get (c : Config) (u : RawUnit) (i : Fin 1275) :
    (codewordsOf c u)[codewordOf i][positionOf i] = fwdXlate c u[unitIndex i] := by
  rw [codewordsOf, deinterleave_get_of_payload, payloadOf_get]

/-- Settles O16: the rows are the codewords of the unit in `IN_BUF`, read at the place of one payload byte. -/
theorem deintFillsTheCodewords : Obligations.DeintFillsTheCodewords := fun s =>
  ⟨codewordsOf s.config s.block.inBuf, exec_deint s, fun i hi => codewordsOf_get s.config s.block.inBuf ⟨i, hi⟩⟩

/-! ## REINT (spec/42_orchestrator.md R89) -/

theorem exec_reint (s : State) : exec .reint s = .next (reintStep s) := rfl

/-- Settles O18: the frame is the reinterleaved `CC`, read one byte at a time. -/
theorem reintBuildsTheFrame : Obligations.ReintBuildsTheFrame := fun s =>
  ⟨reinterleave s.config s.block.cc, exec_reint s, fun i hi => reinterleave_get s.config s.block.cc ⟨i, hi⟩⟩

end Sys2Proof.Machine
end

section
/-!
PROOF. The host commands by state (spec/43_io_adapter_commands.md R100 to R106): for each command the states in which it acts
at once and those in which it is deferred. Where it is turned away is proved with the command words, above.
-/

namespace Sys2Proof.Machine

/-! ## A frame in progress is not at a boundary (spec/42_orchestrator.md R84) -/

/-- The codes DEINT to RELEASE are neither IDLE nor FETCH. -/
theorem not_atBoundary_of_inProgress {b : Block} (h : b.inProgress = true) : ¬ b.atBoundary = true := by
  rw [atBoundary_iff]
  rcases (inProgress_iff b).mp h with hs | hs | hs | hs | hs <;> rw [hs] <;> decide

theorem not_idle_of_inProgress {b : Block} (h : b.inProgress = true) : b.state ≠ codeIdle := fun hs =>
  not_atBoundary_of_inProgress h ((atBoundary_iff b).mpr (.inl hs))

theorem not_fetch_of_inProgress {b : Block} (h : b.inProgress = true) : b.state ≠ codeFetch := fun hs =>
  not_atBoundary_of_inProgress h ((atBoundary_iff b).mpr (.inr hs))

/-! ## NOP, PROCESS_ONE and RUN -/

/-- Settles O8: the meaning of NOP looks at no field of the state. -/
theorem nopChangesNothing : Obligations.NopChangesNothing := fun _ => rfl

theorem exec_processOne_idle {s : State} (hs : s.block.state = codeIdle) :
    exec .processOne s = .next (startCycle false s) :=
  congrArg Host.Outcome.next (if_pos hs)

theorem exec_run_idle {s : State} (hs : s.block.state = codeIdle) : exec .run s = .next (startCycle true s) :=
  congrArg Host.Outcome.next (if_pos hs)

/-- Settles O9: IDLE starts a cycle in single mode, every other state turns the word away. -/
theorem processOneStartsFromIdleOnly : Obligations.ProcessOneStartsFromIdleOnly :=
  fun _ => ⟨exec_processOne_idle, exec_processOne_turnedAway⟩

/-- Settles O10: IDLE starts a cycle in continuous mode, every other state turns the word away. -/
theorem runStartsFromIdleOnly : Obligations.RunStartsFromIdleOnly :=
  fun _ => ⟨exec_run_idle, exec_run_turnedAway⟩

/-! ## CANCEL -/

theorem exec_cancel_idle {s : State} (hs : s.block.state = codeIdle) : exec .cancel s = .next s :=
  congrArg Host.Outcome.next (if_pos hs)

theorem exec_cancel_fetch {s : State} (hs : s.block.state = codeFetch) :
    exec .cancel s = .next (s.withBlock { s.block with run := false, cancelPending := false, state := codeIdle }) := by
  have hIdle : s.block.state ≠ codeIdle := fun h => absurd (hs.symm.trans h) (by decide)
  exact congrArg Host.Outcome.next ((if_neg hIdle).trans (if_pos hs))

theorem exec_cancel_inProgress {s : State} (h : s.block.inProgress = true) :
    exec .cancel s = .next (s.withBlock { s.block with cancelPending := true }) :=
  congrArg Host.Outcome.next
    (((if_neg (not_idle_of_inProgress h)).trans (if_neg (not_fetch_of_inProgress h))).trans (if_pos h))

/-- Settles O11: the four lines of R104. -/
theorem cancelByState : Obligations.CancelByState :=
  fun _ => ⟨exec_cancel_idle, exec_cancel_fetch, exec_cancel_inProgress, exec_cancel_turnedAway⟩

/-! ## SET_INPUT -/

theorem exec_setInput_atBoundary {s : State} (h : s.block.atBoundary = true) (src : BitVec 8) :
    exec (.setInput src) s = .next (s.withBlock { s.block with srcId := src }) :=
  congrArg Host.Outcome.next (if_pos h)

theorem exec_setInput_inProgress {s : State} (h : s.block.inProgress = true) (src : BitVec 8) :
    exec (.setInput src) s = .next (s.withBlock { s.block with pendSrc := src, swapPending := true }) :=
  congrArg Host.Outcome.next ((if_neg (not_atBoundary_of_inProgress h)).trans (if_pos h))

/-- Settles O12: the three lines of R106, each for every source id. -/
theorem setInputByState : Obligations.SetInputByState := fun _ src =>
  ⟨fun h => exec_setInput_atBoundary h src, fun h => exec_setInput_inProgress h src,
    fun h => exec_setInput_turnedAway h src⟩

end Sys2Proof.Machine
end

section
/-!
PROOF. The configuration is fixed (spec/70_reset_and_hazards.md R137): the step rules, the commands, the host's accesses, the
environment's events and reset are all written over updates that leave it as it was.
-/

namespace Sys2Proof.Machine

/-- Taking a move off the agenda leaves the configuration. -/
@[simp] theorem pop_config (s : State) : s.pop.config = s.config := withAgenda_config s s.agenda.tail

/-- The step rules write the block, the sources, the sink and the records of events and codec calls only. -/
theorem TurnEffect.config_eq {s t : State} (h : TurnEffect s t) : t.config = s.config := by
  cases h with
  | idle | fatal | inputWaits | sinkWaits => rfl
  | inputEnded => exact raiseEvent_config s _
  | acquired | deinterleaved | reinterleaved => exact withBlock_config s _
  | corrected => exact (withBlock_config _ _).trans (recordCall_config s _ _)
  | uncorrectable => exact (raiseEvent_config _ _).trans (recordCall_config s _ _)
  | emitted => exact (withBlock_config _ _).trans (pushFrame_config s _)
  | released => exact (withBlock_config _ _).trans (withSources_config s _)

/-- A command writes the block only, or is turned away. -/
theorem CommandEffect.config_eq {s t : State} (h : CommandEffect s t) : t.config = s.config := by
  cases h with
  | nothing => rfl
  | turnedAway w => exact turnAway_config s w
  | started | cancelled | cancelDeferred | swapped | swapDeferred => exact withBlock_config s _

/-- A move of any agent leaves the configuration, and a reset reads it without writing it. -/
theorem StepEffect.config_eq {s t : State} (h : StepEffect s t) : t.config = s.config := by
  refine Eq.trans ?_ (pop_config s)
  cases h with
  | turn _ he => exact he.config_eq
  | command _ _ _ _ _ _ he => exact he.config_eq
  | turnedAway w => exact turnAway_config s.pop w
  | ignored => rfl
  | rejected => exact raiseEvent_config s.pop _
  | read v => exact returnToHost_config s.pop v
  | readRejected v => exact (raiseEvent_config _ _).trans (returnToHost_config s.pop v)
  | wasReset => exact resetBlock_config s.pop
  | delivered => exact withSources_config s.pop _
  | streamEnded src => exact endStreamOf_config s.pop src
  | sinkSet ready => exact setSinkReady_config s.pop ready

/-- Settles O60: every next state is the effect of one move, and no effect touches the configuration. -/
theorem stepsKeepTheConfiguration : Obligations.StepsKeepTheConfiguration :=
  fun _ _ h => (step_next_effect h).config_eq

end Sys2Proof.Machine
end

section
/-!
PROOF. The encoder and the decoder undo each other (spec/30_encoding.md 1 to 4), in both formats and in the bytes that hold a
code; and the words written out in the tables and by the host assembly.
-/

namespace Sys2Proof.Machine

/-! ## The parts of a word (spec/20_memory.md R39, spec/30_encoding.md R51) -/

/-- The four lanes, put together again in their order, are the word: each lane starts where the one below it ends. -/
theorem wordOfLanes_lanes (w : Word) :
    wordOfLanes (w.extractLsb' 0 8) (w.extractLsb' 8 8) (w.extractLsb' 16 8) (w.extractLsb' 24 8) = w := by
  rw [wordOfLanes, BitVec.extractLsb'_append_extractLsb'_eq_extractLsb' (rfl : 24 = 16 + 8),
    BitVec.extractLsb'_append_extractLsb'_eq_extractLsb' (rfl : 16 = 8 + 8),
    BitVec.extractLsb'_append_extractLsb'_eq_extractLsb' (rfl : 8 = 0 + 8)]
  exact BitVec.extractLsb'_eq_self

/-- Settles O5: each lane is the slice of eight bits that starts at its place. -/
theorem byteLanesAreLittleEndian : Obligations.ByteLanesAreLittleEndian := fun w =>
  ⟨_, _, _, _, rfl, wordOfLanes_lanes w, fun j => by
    simp only [BitVec.getElem_extractLsb', Nat.zero_add]
    refine ⟨?_, ?_, ?_, ?_⟩ <;> exact BitVec.getLsbD_eq_getElem (by omega)⟩

/-- A command word is its three fields side by side. -/
theorem word_of_fields (w : Word) : fieldRsv w ++ fieldArg w ++ fieldOp w = w := by
  rw [fieldRsv, fieldArg, fieldOp, BitVec.extractLsb'_append_extractLsb'_eq_extractLsb' (rfl : 16 = 8 + 8),
    BitVec.extractLsb'_append_extractLsb'_eq_extractLsb' (rfl : 8 = 0 + 8)]
  exact BitVec.extractLsb'_eq_self

/-! ## Codes and their bytes -/

/-- The bytes that hold a code are read as that code. -/
theorem codeOfBytes_bytesOfCode (code : Code) : codeOfBytes (bytesOfCode code) = .ok code := by
  cases code with
  | command w => exact congrArg (Except.ok ∘ Code.command) (wordOfLanes_lanes w)
  | step code =>
    have hcode : (code.setWidth 8).extractLsb' 0 4 = code :=
      (BitVec.extractLsb'_setWidth_of_le (by decide)).trans BitVec.extractLsb'_eq_self
    exact congrArg (Except.ok ∘ Code.step) hcode

/-- Decoding the bytes of a code is decoding the code. -/
theorem decodeBytes_bytesOfCode (code : Code) : decodeBytes (bytesOfCode code) = decode code := by
  rw [decodeBytes, codeOfBytes_bytesOfCode]

/-! ## Decoding an encoding -/

theorem decode_encode {i : Instr} (hi : i.wf = true) : decode (encode i) = .ok i := by
  cases i with
  | setInput src => exact decodeCommand_setInputWord src
  | reservedStep code => exact congrArg Except.ok (decodeStep_reserved (of_decide_eq_true hi))
  | nop | processOne | run | cancel => rfl
  | idle | fetch | deint | decode | reint | emit | release | fatal => rfl

/-- Settles O1: by format and operand, and then through the bytes that hold the code. -/
theorem decodeInvertsEncode : Obligations.DecodeInvertsEncode := fun _ hi =>
  ⟨decode_encode hi, (decodeBytes_bytesOfCode _).trans (decode_encode hi)⟩

/-! ## Encoding what was decoded -/

/-- A command word that decodes: its RSV is 0, and its ARG is 0 or the operand of SET_INPUT. -/
theorem encode_of_decodeCommand {w : Word} {i : Instr} (h : decodeCommand w = .ok i) :
    i.wf = true ∧ encode i = .command w := by
  have hfields := word_of_fields w
  unfold decodeCommand at h
  split at h
  case isFalse => cases h
  case isTrue hrsv =>
    rw [hrsv] at hfields
    split at h
    -- SET_INPUT: the word keeps its ARG
    case h_5 hop =>
      have hop : fieldOp w = 4#8 := BitVec.eq_of_toNat_eq hop
      cases h
      rw [hop] at hfields
      exact ⟨rfl, congrArg Code.command hfields⟩
    -- an OP that is not assigned
    case h_6 => cases h
    -- NOP, PROCESS_ONE, RUN and CANCEL: the word is its OP
    all_goals
      next hop =>
        have hop := (BitVec.toNat_eq_nat.mp hop).2
        split at h
        case isFalse => cases h
        case isTrue harg =>
          cases h
          rw [hop, harg] at hfields
          exact ⟨rfl, congrArg Code.command hfields⟩

/-- Each of the sixteen step codes is the code of the step it selects. -/
theorem encode_decodeStep (code : BitVec 4) :
    (decodeStep code).wf = true ∧ encode (decodeStep code) = .step code := by
  revert code
  decide

/-- Settles O2: by format. -/
theorem encodeInvertsDecode : Obligations.EncodeInvertsDecode := fun code i h => by
  cases code with
  | command w => exact encode_of_decodeCommand h
  | step code =>
    cases h
    exact encode_decodeStep code

/-! ## Words written out -/

/-- Settles O4: the seven codes and the two numbers, each decoded. -/
theorem wordsOfTheTablesDecode : Obligations.WordsOfTheTablesDecode :=
  ⟨rfl, rfl, rfl, rfl, rfl, rfl, rfl, rfl, rfl⟩

/-- The word of SET_INPUT as R54 writes it: the opcode in the low byte, the source id shifted above it. -/
theorem setInputWord_eq (src : BitVec 8) : setInputWord src = 0x00000004#32 ||| (src.setWidth 32 <<< 8) := by
  have h := BitVec.setWidth_append_append_eq_shiftLeft_setWidth_or (b := 0#16) (b' := src) (b'' := 4#8) (w''' := 32)
  rw [BitVec.setWidth_eq] at h
  rw [setInputWord, h]
  simp [BitVec.or_comm]

theorem encode_commandInstr (command : HostCommand) : encode (commandInstr command) = .command (commandWord command) := by
  cases command <;> rfl

/-- The word of a mnemonic decodes to its instruction: every command is well formed. -/
theorem decodeCommand_commandWord (command : HostCommand) :
    decodeCommand (commandWord command) = .ok (commandInstr command) := by
  have hwf : (commandInstr command).wf = true := by cases command <;> rfl
  have h := decode_encode hwf
  rwa [encode_commandInstr] at h

/-- Settles O57: the words of R54, their decoding, and the line of a mnemonic. -/
theorem assemblyLinesWriteTheirWords : Obligations.AssemblyLinesWriteTheirWords :=
  ⟨rfl, rfl, rfl, rfl, setInputWord_eq, decodeCommand_commandWord, fun _ => rfl⟩

end Sys2Proof.Machine
end

section
/-!
PROOF. One transition as one move of one agent (spec/20_memory.md R45): the orchestrator's turn and the written command run the
decoded instruction, a reset clears the block, and the environment's moves change their own port (spec/42_orchestrator.md R82,
spec/43_io_adapter_commands.md R96 to R99, spec/70_reset_and_hazards.md R127).
-/

namespace Sys2Proof.Machine

/-! ## Taking a move off the agenda -/

@[simp] theorem pop_block (s : State) : s.pop.block = s.block := rfl
@[simp] theorem pop_sink (s : State) : s.pop.sink = s.sink := rfl
@[simp] theorem pop_events (s : State) : s.pop.events = s.events := rfl

theorem pop_of_agenda {s : State} {m : Move} {rest : List Move} (hm : s.agenda = m :: rest) :
    s.pop = s.withAgenda rest := by
  rw [State.pop, hm, List.tail_cons]

/-- A step makes the move at the head of the agenda. -/
theorem step_of_move {s : State} {m : Move} {rest : List Move} (hm : s.agenda = m :: rest) :
    step s = makeMove m (s.withAgenda rest) := by
  simp only [step, hm]

/-! ## The decoded instruction runs -/

/-- Settles O6: the turn runs the step that `state` selects. -/
theorem orchestratorRunsTheSelectedStep : Obligations.OrchestratorRunsTheSelectedStep := fun s i hm hd => by
  have hd : decodeStep s.pop.block.state = i := Except.ok.inj hd
  rw [step_of_orchestratorMoves hm, orchestratorTurn, hd]

/-- Settles O7: an aligned write of four bytes to CMD is a command when its word decodes. -/
theorem aWrittenCommandRuns : Obligations.AWrittenCommandRuns := fun s w rest i hm hd => by
  rw [step_memWrite hm, hostWrite_of_command hd, pop_of_agenda hm]

/-! ## Admitted reads -/

theorem hostRead_admitted {offset n : Nat} (ha : admitted offset n = true) (s : State) :
    hostRead offset n s = returnToHost (readRegister s.block offset) s := by
  rw [hostRead, if_pos ha, readValue_admitted ha]

/-- Settles O28: each of the eight offsets is admitted and reads its register. -/
theorem admittedReadsReturnTheRegister : Obligations.AdmittedReadsReturnTheRegister := by
  intro s offset rest hm v hv
  rw [step_memRead hm]
  rcases hv with ⟨rfl, rfl⟩ | ⟨rfl, rfl⟩ | ⟨rfl, rfl⟩ | ⟨rfl, rfl⟩ | ⟨rfl, rfl⟩ | ⟨rfl, rfl⟩ | ⟨rfl, rfl⟩ | ⟨rfl, rfl⟩
  all_goals exact congrArg Host.Outcome.next (hostRead_admitted rfl (s.withAgenda rest))

/-! ## Reset -/

/-- Settles O31: the state a reset leaves, element by element. -/
theorem resetClearsTheBlock : Obligations.ResetClearsTheBlock := fun s rest hm =>
  ⟨resetBlock (s.withAgenda rest), step_of_move hm, rfl, rfl, rfl, rfl, rfl, rfl, rfl, rfl, rfl⟩

/-- Settles O32: powering on is a reset under the installed configuration. -/
theorem powerOnIsAReset : Obligations.PowerOnIsAReset :=
  ⟨rfl, rfl, rfl, statusWord_reset Config.installed⟩

/-! ## Boot (spec/70_reset_and_hazards.md R131) -/

/-- The check of a pair of tables, byte by byte. -/
theorem tableUndoes_iff {g f : Vector Byte 256} :
    tableUndoes g f = true ↔ ∀ v : Byte, g[f[v.toNat].toNat] = v :=
  ⟨tableUndoes_get, fun h => decide_eq_true fun v => congrArg BitVec.toNat (h (BitVec.ofFin v))⟩

theorem rawConfig_wf_iff {raw : RawConfig} :
    raw.wf = true ↔ ∀ v : Byte, raw.rev[raw.fwd[v.toNat].toNat] = v ∧ raw.fwd[raw.rev[v.toNat].toNat] = v := by
  rw [RawConfig.wf, Bool.and_eq_true, tableUndoes_iff, tableUndoes_iff, forall_and]

/-- A well-formed raw configuration is admitted as it is. -/
theorem boot_of_wf {raw : RawConfig} (h : raw.wf = true) (sources : Vector InputStream 255) (ready : Bool)
    (agenda : List Move) : ∃ c : Config, c.toRawConfig = raw ∧
      boot raw sources ready agenda = .next (State.powerOn c sources ready agenda) := by
  have hadmit : ∃ c : Config, c.toRawConfig = raw ∧ admitConfig raw = .ok c := ⟨_, rfl, dif_pos h⟩
  obtain ⟨c, hc, hadmit⟩ := hadmit
  refine ⟨c, hc, ?_⟩
  unfold boot
  rw [hadmit]

theorem boot_of_not_wf {raw : RawConfig} (h : ¬ raw.wf = true) (sources : Vector InputStream 255) (ready : Bool)
    (agenda : List Move) : boot raw sources ready agenda = .refused .configRefused := by
  have hadmit : admitConfig raw = .error .configRefused := dif_neg h
  unfold boot
  rw [hadmit]

/-- Settles O33: the check at boot is the inverse law on every byte, under which FWD is a bijection with inverse REV. -/
theorem configurationsAreCheckedAtBoot : Obligations.ConfigurationsAreCheckedAtBoot := by
  intro raw sources ready agenda
  refine ⟨fun h => ?_, fun h => boot_of_not_wf (fun hwf => h (rawConfig_wf_iff.mp hwf)) sources ready agenda⟩
  obtain ⟨c, rfl, hboot⟩ := boot_of_wf (rawConfig_wf_iff.mpr h) sources ready agenda
  refine ⟨_, hboot, rfl, rfl, rfl, rfl, rfl, ?_, fun v => ⟨rfl, rfl⟩⟩
  exact Function.bijective_iff_has_inverse.mpr ⟨revXlate c, revXlate_fwdXlate c, fwdXlate_revXlate c⟩

/-! ## The streams (spec/43_io_adapter_commands.md R96, R97) -/

/-- The stream of source id `id` is number `id - 1`. -/
theorem sourceIndex_eq_some {id : BitVec 8} {k : Fin 255} : sourceIndex id = some k ↔ id.toNat = k.val + 1 := by
  unfold sourceIndex
  split
  · simp; omega
  · simp [Fin.ext_iff]; omega

theorem sourceIndex_eq_none {id : BitVec 8} : sourceIndex id = none ↔ id.toNat = 0 := by
  simp [sourceIndex]

/-- An update reaches the stream of its id and no other. -/
theorem updateStream_get (q : Vector InputStream 255) (id : BitVec 8) (f : InputStream → InputStream) (k : Fin 255) :
    (updateStream q id f)[k] = if id.toNat = k.val + 1 then f q[k] else q[k] := by
  unfold updateStream
  rcases hj : sourceIndex id with _ | j
  · have hid := sourceIndex_eq_none.mp hj
    rw [if_neg (by omega)]
  · have hid := sourceIndex_eq_some.mp hj
    by_cases hjk : j = k
    · subst hjk
      simp [hid]
    · have hne : j.val ≠ k.val := fun e => hjk (Fin.ext e)
      simp [hid, hne]

/-- Settles O15: a source id other than 0 has a stream, and the poll looks at its queue and then at its ended flag. -/
theorem pollAnswersFromTheQueue : Obligations.PollAnswersFromTheQueue := by
  intro sources id st hid hst
  obtain ⟨hlt, rfl⟩ := Vector.getElem?_eq_some_iff.mp hst
  have hpos : id.toNat ≠ 0 := fun h => hid (BitVec.eq_of_toNat_eq h)
  have hk : sourceIndex id = some ⟨id.toNat - 1, hlt⟩ := sourceIndex_eq_some.mpr (by simp only; omega)
  have hpoll : poll sources id = pollStream sources[id.toNat - 1] := by simp only [poll, hk]; rfl
  rw [hpoll]
  refine ⟨fun u rest hq => pollStream_of_head hq, fun hq he => ?_, fun hq he => ?_⟩ <;> simp [pollStream, hq, he]

/-- Settles O21: the source has a stream with that unit at its head, and the release updates that stream alone. -/
theorem releaseRemovesTheHeadUnitOnly : Obligations.ReleaseRemovesTheHeadUnitOnly := by
  intro sources id u h
  obtain ⟨k, rest, hk, hq⟩ := poll_eq_unit h
  have hid := sourceIndex_eq_some.mp hk
  refine ⟨k, rest, hid, hq, ?_, fun j hj => ?_, fun id' hne => poll_updateStream_other sources hne dropHead⟩
  · rw [releaseUnit, updateStream_get, if_pos hid, dropHead, hq, List.tail_cons]
  · have hne : id.toNat ≠ j.val + 1 := fun e => hj (Fin.ext (by omega))
    rw [releaseUnit, updateStream_get, if_neg hne]

/-- A whole unit presented as its bytes is that unit. -/
theorem deliverUnit_toList (src : BitVec 8) (u : RawUnit) (s : State) :
    deliverUnit src u.toList s = .next (s.withSources (updateStream s.sources src (appendUnit u))) := by
  rw [deliverUnit, dif_pos (Vector.length_toList ..)]
  rfl

/-- Settles O58: each move's update, stream by stream; an ended stream takes no unit. -/
theorem environmentMovesChangeTheirPortOnly : Obligations.EnvironmentMovesChangeTheirPortOnly := by
  refine ⟨fun s src u rest hm => ⟨updateStream s.sources src (appendUnit u), ?_, fun k => ?_⟩,
    fun s src rest hm => ⟨updateStream s.sources src markEnded, step_of_move hm, fun k => updateStream_get ..⟩,
    fun s ready rest hm => step_of_move hm⟩
  · exact (step_of_move hm).trans (deliverUnit_toList src u (s.withAgenda rest))
  · rw [updateStream_get, appendUnit]
    rcases s.sources[k] with ⟨queue, _ | _⟩ <;> simp

end Sys2Proof.Machine
end

section
/-!
PROOF. The step rules FETCH, DECODE, EMIT and RELEASE in full (spec/42_orchestrator.md R86, R88, R90, R91), and two facts about
the frame's way through the datapath (spec/40_interleave_translate.md R65, R72).
-/

namespace Sys2Proof.Machine

/-! ## FETCH (spec/42_orchestrator.md R86) -/

theorem fetchStep_of_wait {s : State} (hp : poll s.sources s.block.srcId = .wait) : fetchStep s = s := by
  rw [fetchStep, hp]

theorem fetchStep_of_ended {s : State} (hp : poll s.sources s.block.srcId = .ended) :
    fetchStep s = raiseEvent .inputExhausted s := by
  rw [fetchStep, hp]

theorem fetchStep_of_unit {s : State} {u : RawUnit} (hp : poll s.sources s.block.srcId = .unit u) :
    fetchStep s = acquireUnit u s := by
  rw [fetchStep, hp]

/-- Settles O14: the three answers, and source id 0. -/
theorem fetchByTheSourcesAnswer : Obligations.FetchByTheSourcesAnswer :=
  ⟨poll_zero, fun _ =>
    ⟨fun hp => congrArg Host.Outcome.next (fetchStep_of_wait hp),
     fun hp => congrArg Host.Outcome.next (fetchStep_of_ended hp),
     fun _ hp => congrArg Host.Outcome.next (fetchStep_of_unit hp)⟩⟩

/-- On its turn the orchestrator runs the step its code selects. -/
theorem step_of_turn {s : State} {i : Instr} (hm : orchestratorMoves s) (hi : decodeStep s.block.state = i) :
    step s = exec i s.pop :=
  orchestratorRunsTheSelectedStep s i hm (congrArg Except.ok hi)

/-- Settles O56: FETCH raises InputExhausted, which writes no buffer. -/
theorem anEndOfStreamCycleIsOneStep : Obligations.AnEndOfStreamCycleIsOneStep := by
  intro s hm hs hp
  have hstep : step s = .next (fetchStep s.pop) := step_of_turn (i := .fetch) hm (by rw [hs]; rfl)
  rw [fetchStep_of_ended (s := s.pop) hp] at hstep
  exact ⟨_, hstep, rfl, rfl, rfl, rfl, rfl, rfl, rfl, rfl, rfl⟩

/-! ## DECODE (spec/42_orchestrator.md R88) -/

/-- Settles O40: the message up to its length, the old row from there on. -/
theorem codecWriteLengthDecidesTheRow : Obligations.CodecWriteLengthDecidesTheRow :=
  ⟨writtenRow_full, fun _ _ => Vector.ext fun p hp => by simp [writtenRow],
    fun _ _ _ p hp => by simp [writtenRow]⟩

theorem exec_decode (s : State) : exec .decode s = decodeCodeword s := rfl

/-- DECODE by the codec's answer of 255 bytes. -/
theorem decodeCodeword_of_answer {s : State} {k : Fin 5} {ok : Bool} {msg : Codeword} (hk : s.block.cwIdx.toNat = k.val)
    (ha : callCodec s.config.codec s.block.cw[k] = .answer ok msg) :
    decodeCodeword s = .next (
      if ok then acceptCodeword k msg (recordCall s.block.cwIdx s.block.cw[k] s)
      else raiseEvent (.uncorrectableCodeword s.block.cwIdx) (recordCall s.block.cwIdx s.block.cw[k] s)) := by
  simp only [decodeCodeword, codewordIndex_eq_some.mpr hk, ha]

/-- DECODE on a codec result of another length. -/
theorem decodeCodeword_of_malformed {s : State} {k : Fin 5} {bytes : List Byte} (hk : s.block.cwIdx.toNat = k.val)
    (ha : callCodec s.config.codec s.block.cw[k] = .malformed bytes) : decodeCodeword s = .refused .portContract := by
  simp only [decodeCodeword, codewordIndex_eq_some.mpr hk, ha]

/-- DECODE on an index that names no codeword. -/
theorem decodeCodeword_of_badIndex {s : State} (hk : 4 < s.block.cwIdx.toNat) : decodeCodeword s = .fault .badState := by
  simp only [decodeCodeword, codewordIndex_eq_none.mpr hk]

theorem cwIdx_eq_ofNat {v : BitVec 3} {k : Fin 5} (h : v.toNat = k.val) : v = BitVec.ofNat 3 k.val := by
  rw [← h, BitVec.ofNat_toNat, BitVec.setWidth_eq]

/-- The index is 4 on the last codeword. -/
theorem cwIdx_eq_four_iff {v : BitVec 3} {k : Fin 5} (h : v.toNat = k.val) : v = 4#3 ↔ k.val = 4 := by
  rw [← h, ← BitVec.toNat_inj]
  rfl

/-- What a corrected codeword leaves: its row, and the next codeword or REINT. -/
theorem acceptCodeword_eq {s : State} {k : Fin 5} (hk : s.block.cwIdx.toNat = k.val) (msg : Codeword) :
    acceptCodeword k msg s = s.withBlock { s.block with
      cc := s.block.cc.set k (writtenRow s.config.codecWriteLen s.block.cc[k] msg)
      cwIdx := if k.val = 4 then 4#3 else BitVec.ofNat 3 (k.val + 1)
      state := if k.val = 4 then codeReint else s.block.state } := by
  have hnext : s.block.cwIdx + 1#3 = BitVec.ofNat 3 (k.val + 1) := by rw [cwIdx_eq_ofNat hk, ← BitVec.ofNat_add]
  simp only [acceptCodeword, hnext, cwIdx_eq_four_iff hk]
  by_cases h : k.val = 4 <;> simp only [h, if_true, if_false]
  rw [(cwIdx_eq_four_iff hk).mpr h]

/-- Settles O17: the codec's answer and flag decide, and an index above 4 faults. -/
theorem decodeMakesOneCodecCall : Obligations.DecodeMakesOneCodecCall := by
  refine fun s => ⟨fun k ok msg hk ha => ?_, decodeCodeword_of_badIndex⟩
  have hrow : writtenRow s.config.codecWriteLen s.block.cc[k] msg =
      if s.config.codecWriteLen = 255 then msg else writtenRow s.config.codecWriteLen s.block.cc[k] msg := by
    split
    · next h => rw [h, writtenRow_full]
    · rfl
  rw [exec_decode, decodeCodeword_of_answer hk ha]
  cases ok with
  | false => rfl
  | true =>
    rw [← hrow, if_pos rfl, acceptCodeword_eq (s := recordCall s.block.cwIdx s.block.cw[k] s) hk]
    rfl

/-! ## EMIT (spec/42_orchestrator.md R90) -/

/-- Settles O19: by the sink's readiness. -/
theorem emitPushesWhenReady : Obligations.EmitPushesWhenReady := fun _ =>
  ⟨fun hr => congrArg Host.Outcome.next (if_pos hr), fun hr => congrArg Host.Outcome.next (if_neg (by simp [hr]))⟩

/-! ## RELEASE (spec/42_orchestrator.md R91) -/

theorem publishResult_eq (b : Block) : publishResult b = { b with
    framesOk := if b.pendKind = .ok then b.framesOk + 1#32 else b.framesOk
    framesDropped := if b.pendKind = .ok then b.framesDropped else b.framesDropped + 1#32
    lastResult := if b.pendKind = .ok then resultOk else resultDropped b.pendFail } := by
  unfold publishResult
  split <;> next h => simp [h]

theorem applySwap_eq (b : Block) : applySwap b = { b with
    srcId := if b.swapPending then b.pendSrc else b.srcId, swapPending := false } := by
  unfold applySwap
  cases hb : b.swapPending with
  | true => rfl
  | false =>
    simp only [Bool.false_eq_true, if_false]
    rw [← hb]

theorem endCycle_eq (b : Block) : endCycle b = { b with
    cancelPending := if b.cancelPending || !b.run then false else b.cancelPending
    run := if b.cancelPending || !b.run then false else b.run
    state := if b.cancelPending || !b.run then codeIdle else codeFetch } := by
  unfold endCycle
  cases hstop : b.cancelPending || !b.run <;> simp

/-- The block RELEASE leaves: its three parts in one update. -/
def releasedBlock (b : Block) : Block := { b with
  framesOk := if b.pendKind = .ok then b.framesOk + 1#32 else b.framesOk
  framesDropped := if b.pendKind = .ok then b.framesDropped else b.framesDropped + 1#32
  lastResult := if b.pendKind = .ok then resultOk else resultDropped b.pendFail
  srcId := if b.swapPending then b.pendSrc else b.srcId
  swapPending := false
  cancelPending := if b.cancelPending || !b.run then false else b.cancelPending
  run := if b.cancelPending || !b.run then false else b.run
  state := if b.cancelPending || !b.run then codeIdle else codeFetch }

theorem releaseStep_eq (s : State) :
    releaseStep s = (s.withSources (releaseUnit s.sources s.block.srcId)).withBlock (releasedBlock s.block) := by
  rw [releaseStep, endCycle_eq, applySwap_eq, publishResult_eq]
  rfl

/-- Settles O20: the three parts of the rule in one update of the block. -/
theorem releaseReportsAndEndsTheCycle : Obligations.ReleaseReportsAndEndsTheCycle := fun s =>
  congrArg Host.Outcome.next (releaseStep_eq s)

/-! ## The way of a payload (spec/40_interleave_translate.md R65, R72) -/

/-- The reverse translation undoes the forward one, and what is left is the derandomiser. -/
theorem reinterleave_deinterleave_get (c : Config) (payload : Frame) (i : Fin 1275) :
    (reinterleave c (deinterleave c payload))[i] = payload[i] ^^^ c.prbs[prbsIndex i] := by
  rw [reinterleave_get, deinterleave_get_of_payload, revXlate_fwdXlate]

/-- Settles O38: byte by byte, with 0 as the payload byte in the second case. -/
theorem passThroughIdentity : Obligations.PassThroughIdentity := by
  refine fun c payload => ⟨fun i hi => reinterleave_deinterleave_get c payload ⟨i, hi⟩, ?_⟩
  rintro rfl i hi
  have hzero : (zeroBytes 1275)[i] = 0#8 := Vector.getElem_replicate hi
  refine (reinterleave_deinterleave_get c _ ⟨i, hi⟩).trans ?_
  exact (congrArg (· ^^^ c.prbs[i % 255]) hzero).trans BitVec.zero_xor

/-- Settles O39: byte `i` of the payload is translated back from its place in the codewords. -/
theorem deinterleaveLosesNothing : Obligations.DeinterleaveLosesNothing := by
  intro c p q h
  have hget (i : Fin 1275) : p[i] = q[i] := by
    rw [← revXlate_fwdXlate c p[i], ← deinterleave_get_of_payload, h, deinterleave_get_of_payload, revXlate_fwdXlate]
  exact Vector.ext fun i hi => hget ⟨i, hi⟩

end Sys2Proof.Machine
end

section
/-!
PROOF. When a step faults or refuses (spec/60_exceptions.md R114), and the four kinds of step that answer a next state: a turn of
the orchestrator, a command, a reset, and a bystander's move, which leaves the block alone but for `cmd_err`.
-/

namespace Sys2Proof.Machine

/-! ## Faults and refusals (spec/60_exceptions.md R114) -/

theorem orchestratorTurn_fault {s : State}
    (h : 8 ≤ s.block.state.toNat ∨ (s.block.state = codeDecode ∧ 4 < s.block.cwIdx.toNat)) :
    orchestratorTurn s = .fault .badState := by
  rcases h with hr | ⟨hs, hk⟩
  · rw [orchestratorTurn, decodeStep_reserved hr, exec_reservedStep]
  · have hd : decodeStep s.block.state = .decode := by rw [hs]; rfl
    rw [orchestratorTurn, hd, exec_decode, decodeCodeword_of_badIndex hk]

/-- Settles O25: of the three outcomes of a step the fault has these grounds, and on them the turn faults. -/
theorem faultsExactlyOnBadState : Obligations.FaultsExactlyOnBadState := by
  refine fun s => ⟨fun ⟨f, hf⟩ => ?_, fun ⟨hm, h⟩ => ⟨.badState, ?_⟩⟩
  · rcases step_effect s with ⟨t, ht, -⟩ | ⟨-, h⟩ | ⟨hr, -⟩
    · rw [hf] at ht; cases ht
    · exact h
    · rw [hf] at hr; cases hr
  · rw [step_of_orchestratorMoves hm, orchestratorTurn_fault (s := s.pop) h]

/-- A codec result is malformed by its length alone. -/
theorem codecAnswerOfBytes_malformed_iff (ok : Bool) (bytes : List Byte) :
    (∃ bytes', codecAnswerOfBytes ok bytes = .malformed bytes') ↔ bytes.length ≠ 255 := by
  unfold codecAnswerOfBytes
  split <;> next h => simp [h]

theorem orchestratorTurn_refused {s : State} (h : meetsBadCodecResult s) :
    orchestratorTurn s = .refused .portContract := by
  obtain ⟨hs, k, hk, bytes, ha⟩ := h
  have hd : decodeStep s.block.state = .decode := by rw [hs]; rfl
  rw [orchestratorTurn, hd, exec_decode, decodeCodeword_of_malformed hk ha]

theorem deliverUnit_refused {bytes : List Byte} (hb : bytes.length ≠ 1279) (src : BitVec 8) (s : State) :
    deliverUnit src bytes s = .refused .portContract := dif_neg hb

/-- Settles O26: of the three outcomes of a step the refusal has these grounds, and each of them is refused. -/
theorem refusesExactlyOnContractBreaches : Obligations.RefusesExactlyOnContractBreaches := by
  refine ⟨codecAnswerOfBytes_malformed_iff, fun s k bytes hk ha => decodeCodeword_of_malformed hk ha,
    fun s r => ⟨fun hr => ?_, ?_⟩⟩
  · rcases step_effect s with ⟨t, ht, -⟩ | ⟨hf, -⟩ | ⟨hp, h⟩
    · rw [hr] at ht; cases ht
    · rw [hr] at hf; cases hf
    · rw [hr] at hp; cases hp; exact ⟨rfl, h⟩
  · rintro ⟨rfl, ⟨hm, h⟩ | ⟨src, bytes, rest, hm, hb⟩⟩
    · rw [step_of_orchestratorMoves hm, orchestratorTurn_refused (s := s.pop) h]
    · exact (step_of_move hm).trans (deliverUnit_refused hb src _)

/-! ## A bystander's move

A read, a write that is no command, or a move of the environment; and a command that is turned away. -/

/-- What a bystander leaves alone: the block but `cmd_err`, the configuration, the frames and codec calls made so far, and every
unit at the head of a source. -/
structure Bystands (s t : State) : Prop where
  block : ∃ e, t.block = { s.block with cmdErr := e }
  config : t.config = s.config
  sink : t.sink = s.sink
  codecCalls : t.codecCalls = s.codecCalls
  heads : ∀ id u, poll s.sources id = .unit u → poll t.sources id = .unit u

theorem Bystands.refl (s : State) : Bystands s s := ⟨⟨_, rfl⟩, rfl, rfl, rfl, fun _ _ h => h⟩

/-- The move taken off the agenda is no part of what a bystander could change. -/
theorem Bystands.of_pop {s t : State} (h : Bystands s.pop t) : Bystands s t :=
  ⟨h.block, h.config, h.sink, h.codecCalls, h.heads⟩

theorem bystands_turnAway (w : Word) (s : State) : Bystands s (turnAway w s) :=
  ⟨⟨_, rfl⟩, rfl, rfl, rfl, fun _ _ h => h⟩

/-- The four kinds of step. -/
theorem StepEffect.by_agent {s t : State} (h : StepEffect s t) :
    (orchestratorMoves s ∧ TurnEffect s.pop t) ∨
    (∃ w i rest, s.agenda = .memWrite 0 4 w :: rest ∧ decodeCommand w = .ok i ∧ exec i s.pop = .next t ∧
      CommandEffect s.pop t) ∨
    (resetMoves s ∧ t = resetBlock s.pop) ∨
    Bystands s t := by
  cases h with
  | turn hm he => exact .inl ⟨hm, he⟩
  | command w i rest hm hd he h => exact .inr (.inl ⟨w, i, rest, hm, hd, he, h⟩)
  | wasReset hm => exact .inr (.inr (.inl ⟨hm, rfl⟩))
  | turnedAway w => exact .inr (.inr (.inr (bystands_turnAway w s.pop).of_pop))
  | ignored => exact .inr (.inr (.inr (Bystands.refl s.pop).of_pop))
  | delivered src v =>
    exact .inr (.inr (.inr ⟨⟨_, rfl⟩, rfl, rfl, rfl, fun _ _ hp => poll_append_of_unit v hp⟩))
  | streamEnded src => exact .inr (.inr (.inr ⟨⟨_, rfl⟩, rfl, rfl, rfl, fun _ _ hp => poll_markEnded_of_unit hp⟩))
  | rejected | read | readRejected | sinkSet =>
    exact .inr (.inr (.inr ⟨⟨_, rfl⟩, rfl, rfl, rfl, fun _ _ hp => hp⟩))

/-- Short of a reset a step is a turn, a command or a bystander's move. -/
theorem StepEffect.by_agent_of_no_reset {s t : State} (h : StepEffect s t) (hr : ¬ resetMoves s) :
    (orchestratorMoves s ∧ TurnEffect s.pop t) ∨ CommandEffect s.pop t ∨ Bystands s t := by
  rcases h.by_agent with ht | ⟨_, _, _, -, -, -, hc⟩ | ⟨hm, -⟩ | hb
  · exact .inl ht
  · exact .inr (.inl hc)
  · exact absurd hm hr
  · exact .inr (.inr hb)

/-! ## A command touches the block and the event record only -/

theorem CommandEffect.sink_eq {s t : State} (h : CommandEffect s t) : t.sink = s.sink := by
  cases h <;> rfl

/-- What of the block a command can change. -/
theorem CommandEffect.block_eq {s t : State} (h : CommandEffect s t) : t.block = { s.block with
    state := t.block.state, run := t.block.run, swapPending := t.block.swapPending
    cancelPending := t.block.cancelPending, cmdErr := t.block.cmdErr
    srcId := t.block.srcId, pendSrc := t.block.pendSrc } := by
  cases h <;> rfl

/-! ## A frame in progress -/

/-- What stays while a frame goes on, short of a command: the step rules from DEINT to EMIT work on the buffers, the codeword
index and the outcome of the frame, and write nothing else but `state`. -/
structure SameFrame (b b' : Block) : Prop where
  inProgress : b'.inProgress = true
  run : b'.run = b.run
  fatal : b'.fatal = b.fatal
  swapPending : b'.swapPending = b.swapPending
  cancelPending : b'.cancelPending = b.cancelPending
  srcId : b'.srcId = b.srcId
  lastResult : b'.lastResult = b.lastResult
  framesAttempted : b'.framesAttempted = b.framesAttempted
  framesOk : b'.framesOk = b.framesOk
  framesDropped : b'.framesDropped = b.framesDropped
  inBuf : b'.inBuf = b.inBuf

theorem inProgress_of_state {b : Block} {code : BitVec 4} (hs : b.state = code)
    (hc : code = codeDeint ∨ code = codeDecode ∨ code = codeReint ∨ code = codeEmit ∨ code = codeRelease) :
    b.inProgress = true := by
  rw [inProgress_iff, hs]
  exact hc

/-- After a corrected codeword the block is in DECODE or in REINT. -/
theorem sameFrame_acceptCodeword {s : State} (hs : s.block.state = codeDecode) (k : Fin 5) (msg : Codeword) :
    SameFrame s.block (acceptCodeword k msg s).block := by
  have hp : (acceptCodeword k msg s).block.inProgress = true := by
    rcases acceptCodeword_state k msg s with h | h
    · exact inProgress_of_state h (by decide)
    · exact inProgress_of_state (h.trans hs) (by decide)
  exact ⟨hp, rfl, rfl, rfl, rfl, rfl, rfl, rfl, rfl, rfl, rfl⟩

/-- What a turn of the orchestrator can come to: nothing, the two answers that FETCH acts on, work on the frame in progress, or
its release. -/
theorem TurnEffect.by_phase {s t : State} (h : TurnEffect s t) :
    t = s ∨
    (s.block.state = codeFetch ∧ t = raiseEvent .inputExhausted s) ∨
    (s.block.state = codeFetch ∧ ∃ u, poll s.sources s.block.srcId = .unit u ∧ t = acquireUnit u s) ∨
    (s.block.inProgress = true ∧ s.block.state ≠ codeRelease ∧ SameFrame s.block t.block ∧ t.sources = s.sources) ∨
    (s.block.state = codeRelease ∧ t = releaseStep s) := by
  cases h with
  | idle | fatal | inputWaits | sinkWaits => exact .inl rfl
  | inputEnded hs => exact .inr (.inl ⟨hs, rfl⟩)
  | acquired u hs hp => exact .inr (.inr (.inl ⟨hs, u, hp, rfl⟩))
  | released hs => exact .inr (.inr (.inr (.inr ⟨hs, rfl⟩)))
  | corrected k msg hs =>
    refine .inr (.inr (.inr (.inl ⟨inProgress_of_state hs (by decide), by rw [hs]; decide, ?_, rfl⟩)))
    exact sameFrame_acceptCodeword (s := recordCall s.block.cwIdx s.block.cw[k] s) hs k msg
  | deinterleaved hs | reinterleaved hs | uncorrectable _ _ hs | emitted hs =>
    exact .inr (.inr (.inr (.inl ⟨inProgress_of_state hs (by decide), by rw [hs]; decide,
      ⟨rfl, rfl, rfl, rfl, rfl, rfl, rfl, rfl, rfl, rfl, rfl⟩, rfl⟩)))

end Sys2Proof.Machine
end

section
/-!
PROOF. What a step short of a reset cannot do (spec/42_orchestrator.md R84, R85, R92, spec/70_reset_and_hazards.md R138,
spec/60_exceptions.md R110, R116): leave IDLE or FATAL unasked, pass a sink that is not ready, end a frame before RELEASE, or
change a report, the source or `cmd_err` without its reason.
-/

namespace Sys2Proof.Machine

/-! ## States in which the orchestrator is held -/

/-- The orchestrator has no step in IDLE, in FATAL, and in EMIT before a sink that is not ready. -/
def turnIsHeld (s : State) : Prop :=
  s.block.state = codeIdle ∨ s.block.state = codeFatal ∨ (s.block.state = codeEmit ∧ s.outReady = false)

theorem TurnEffect.eq_of_held {s t : State} (h : TurnEffect s t) (hh : turnIsHeld s) : t = s := by
  unfold turnIsHeld at hh
  cases h with
  | idle | fatal | inputWaits | sinkWaits => rfl
  | emitted hs hr => simp [hs, hr] at hh
  | inputEnded hs | acquired _ hs | deinterleaved hs | corrected _ _ hs | uncorrectable _ _ hs
  | reinterleaved hs | released hs => simp [hs] at hh

/-! ## IDLE -/

/-- In IDLE a command leaves the block there, or is PROCESS_ONE or RUN by its word. -/
theorem exec_command_of_idle {s t : State} {w : Word} {i : Instr} (hs : s.block.state = codeIdle)
    (hd : decodeCommand w = .ok i) (he : exec i s = .next t) :
    t.block.state = codeIdle ∨ (t.block.state = codeFetch ∧ (w = 0x00000001#32 ∨ w = 0x00000002#32)) := by
  have hw := (encode_of_decodeCommand hd).2
  rcases decodeCommand_cases hd with rfl | rfl | rfl | rfl | ⟨src, rfl⟩
  · rw [nopChangesNothing s] at he
    cases he
    exact .inl hs
  · rw [exec_processOne_idle hs] at he
    cases he
    exact .inr ⟨rfl, .inl (Code.command.inj hw).symm⟩
  · rw [exec_run_idle hs] at he
    cases he
    exact .inr ⟨rfl, .inr (Code.command.inj hw).symm⟩
  · rw [exec_cancel_idle hs] at he
    cases he
    exact .inl hs
  · rw [exec_setInput_atBoundary ((atBoundary_iff _).mpr (.inl hs))] at he
    cases he
    exact .inl hs

/-- Settles O13: by the four kinds of step; of these a turn and a bystander leave the block in IDLE. -/
theorem idleIsLeftByStartCommandsOnly : Obligations.IdleIsLeftByStartCommandsOnly := by
  refine ⟨fun _ => rfl, fun s t hs h hleft => ?_⟩
  rcases (step_next_effect h).by_agent with ⟨-, ht⟩ | ⟨w, i, rest, hm, hd, he, -⟩ | ⟨hr, -⟩ | hb
  · rw [ht.eq_of_held (.inl hs)] at hleft
    exact absurd hs hleft
  · rcases exec_command_of_idle (s := s.pop) hs hd he with hidle | ⟨hfetch, hw⟩
    · exact absurd hidle hleft
    · exact .inr ⟨hfetch, w, rest, hm, hw⟩
  · exact .inl hr
  · obtain ⟨e, he⟩ := hb.block
    rw [he] at hleft
    exact absurd hs hleft

/-! ## FATAL -/

/-- In FATAL a command is NOP, or is turned away. -/
theorem CommandEffect.bystands_of_fatal {s t : State} (h : CommandEffect s t) (hs : s.block.state = codeFatal) :
    Bystands s t := by
  cases h with
  | nothing => exact Bystands.refl s
  | turnedAway w => exact bystands_turnAway w s
  | started _ h | cancelled h => simp [hs] at h
  | cancelDeferred h | swapDeferred _ h => simp [inProgress_iff, hs] at h
  | swapped _ h => simp [atBoundary_iff, hs] at h

/-- In FATAL everyone but a reset is a bystander. -/
theorem bystands_of_fatal {s t : State} (hs : s.block.state = codeFatal) (h : step s = .next t) (hr : ¬ resetMoves s) :
    Bystands s t := by
  rcases (step_next_effect h).by_agent_of_no_reset hr with ⟨-, ht⟩ | hc | hb
  · rw [ht.eq_of_held (.inr (.inl hs))]
    exact (Bystands.refl s.pop).of_pop
  · exact (hc.bystands_of_fatal hs).of_pop
  · exact hb

/-- Settles O23: a bystander writes `cmd_err` at most. -/
theorem fatalBlockDoesNothing : Obligations.FatalBlockDoesNothing := by
  intro s t hs h hr
  have hb := bystands_of_fatal hs h hr
  obtain ⟨e, he⟩ := hb.block
  exact ⟨hb.codecCalls, hb.sink, by rw [he]⟩

/-- Settles O22: the four commands are turned away, a bystander leaves `state`, and a reset sets it. -/
theorem fatalIsLeftByResetOnly : Obligations.FatalIsLeftByResetOnly := by
  refine ⟨fun _ => rfl, fun s i hs hi => ?_, fun s t hs h hr => ?_, fun s ⟨rest, hm⟩ => ?_⟩
  · have hidle : s.block.state ≠ codeIdle := by rw [hs]; decide
    simp only [List.mem_cons, List.not_mem_nil, or_false] at hi
    rcases hi with (rfl | rfl | rfl) | ⟨src, rfl⟩
    · exact ⟨_, rfl, exec_processOne_turnedAway hidle⟩
    · exact ⟨_, rfl, exec_run_turnedAway hidle⟩
    · exact ⟨_, rfl, exec_cancel_turnedAway hs⟩
    · exact ⟨_, rfl, exec_setInput_turnedAway hs src⟩
  · have hb := bystands_of_fatal hs h hr
    obtain ⟨e, he⟩ := hb.block
    exact ⟨by rw [he]; exact hs, hb.codecCalls⟩
  · exact ⟨resetBlock (s.withAgenda rest), step_of_move hm, rfl, rfl⟩

/-! ## A frame goes on until RELEASE (spec/42_orchestrator.md R84) -/

/-- The frame of the block `b` goes on in `b'`, with the mode, the source and every pending request. -/
structure FrameGoesOn (b b' : Block) : Prop where
  inProgress : b'.inProgress = true
  run : b'.run = b.run
  srcId : b'.srcId = b.srcId
  cancelPending : b.cancelPending = true → b'.cancelPending = true
  swapPending : b.swapPending = true → b'.swapPending = true

theorem SameFrame.goesOn {b b' : Block} (h : SameFrame b b') : FrameGoesOn b b' :=
  ⟨h.inProgress, h.run, h.srcId, h.cancelPending.trans, h.swapPending.trans⟩

/-- While a frame is in progress a command can place a request, and no more. -/
theorem CommandEffect.in_frame {s t : State} (h : CommandEffect s t) (hp : s.block.inProgress = true) :
    t.block.state = s.block.state ∧ FrameGoesOn s.block t.block := by
  cases h with
  | nothing | turnedAway => exact ⟨rfl, hp, rfl, rfl, id, id⟩
  | cancelDeferred => exact ⟨rfl, hp, rfl, rfl, fun _ => rfl, id⟩
  | swapDeferred => exact ⟨rfl, hp, rfl, rfl, id, fun _ => rfl⟩
  | started _ h => exact absurd h (not_idle_of_inProgress hp)
  | cancelled h => exact absurd h (not_fetch_of_inProgress hp)
  | swapped _ h => exact absurd h (not_atBoundary_of_inProgress hp)

/-- Settles O59: a turn works on the frame or releases it, a command places a request, a bystander does nothing to it. -/
theorem onlyReleaseEndsAFrame : Obligations.OnlyReleaseEndsAFrame := by
  intro s t hp h hr
  suffices hgo : (orchestratorMoves s ∧ s.block.state = codeRelease) ∨ FrameGoesOn s.block t.block by
    exact hgo.imp_right fun ⟨hin, hrun, hsrc, hcancel, hswap⟩ => ⟨hin, hrun, hsrc, hcancel, hswap⟩
  rcases (step_next_effect h).by_agent_of_no_reset hr with ⟨hm, ht⟩ | hc | hb
  · rcases ht.by_phase with rfl | ⟨hs, -⟩ | ⟨hs, -⟩ | ⟨-, -, hf, -⟩ | ⟨hs, -⟩
    · exact .inr ⟨hp, rfl, rfl, id, id⟩
    · exact absurd hs (not_fetch_of_inProgress hp)
    · exact absurd hs (not_fetch_of_inProgress hp)
    · exact .inr hf.goesOn
    · exact .inl ⟨hm, hs⟩
  · exact .inr (hc.in_frame hp).2
  · obtain ⟨e, he⟩ := hb.block
    rw [he]
    exact .inr ⟨hp, rfl, rfl, id, id⟩

/-! ## Backpressure (spec/70_reset_and_hazards.md R138) -/

/-- Settles O51: the turn is held, and neither a command nor a bystander touches `state`, OUT_BUF or the sink. -/
theorem backpressureHoldsEmit : Obligations.BackpressureHoldsEmit := by
  intro s t hs hready h hr
  rcases (step_next_effect h).by_agent_of_no_reset hr with ⟨-, ht⟩ | hc | hb
  · rw [ht.eq_of_held (.inr (.inr ⟨hs, hready⟩))]
    exact ⟨hs, rfl, rfl⟩
  · have hp : s.pop.block.inProgress = true := inProgress_of_state hs (by decide)
    refine ⟨(hc.in_frame hp).1.trans hs, hc.sink_eq, ?_⟩
    rw [hc.block_eq]
    rfl
  · obtain ⟨e, he⟩ := hb.block
    rw [he]
    exact ⟨hs, hb.sink, rfl⟩

/-! ## The source (spec/42_orchestrator.md R84, R91) -/

/-- RELEASE attaches the pending source, if there is one. -/
theorem releaseStep_srcId (s : State) :
    (releaseStep s).block.srcId = if s.block.swapPending then s.block.pendSrc else s.block.srcId := by
  rw [releaseStep_eq]
  rfl

/-- A command replaces the source at a boundary only. -/
theorem CommandEffect.srcId_eq {s t : State} (h : CommandEffect s t) :
    t.block.srcId = s.block.srcId ∨ s.block.atBoundary = true := by
  cases h with
  | swapped _ h => exact .inr h
  | nothing | turnedAway | started | cancelled | cancelDeferred | swapDeferred => exact .inl rfl

/-- Settles O50: of the turns RELEASE alone writes `src_id`, and of the commands SET_INPUT at a boundary. -/
theorem sourceIsReplacedAtBoundariesOnly : Obligations.SourceIsReplacedAtBoundariesOnly := by
  intro s t h hne hr
  rcases (step_next_effect h).by_agent_of_no_reset hr with ⟨hm, ht⟩ | hc | hb
  · rcases ht.by_phase with rfl | ⟨-, rfl⟩ | ⟨-, u, -, rfl⟩ | ⟨-, -, hf, -⟩ | ⟨hs, rfl⟩
    · exact absurd rfl hne
    · exact absurd rfl hne
    · exact absurd rfl hne
    · exact absurd hf.srcId hne
    · rw [releaseStep_srcId, pop_block] at hne ⊢
      cases hp : s.block.swapPending with
      | false => simp [hp] at hne
      | true => exact .inr ⟨hs, hm, rfl, rfl⟩
  · exact hc.srcId_eq.elim (fun he => absurd he hne) .inl
  · obtain ⟨e, he⟩ := hb.block
    rw [he] at hne
    exact absurd rfl hne

/-! ## Reports and counters (spec/10_state.md R26, R27) -/

/-- RELEASE counts the frame by its latched outcome and publishes the report of it. -/
theorem releaseStep_reports (s : State) :
    (releaseStep s).block.framesAttempted = s.block.framesAttempted ∧
    ((s.block.pendKind = .ok ∧ (releaseStep s).block.framesOk = s.block.framesOk + 1#32 ∧
        (releaseStep s).block.framesDropped = s.block.framesDropped ∧
        (releaseStep s).block.lastResult = resultOk) ∨
     (s.block.pendKind = .dropped ∧ (releaseStep s).block.framesOk = s.block.framesOk ∧
        (releaseStep s).block.framesDropped = s.block.framesDropped + 1#32 ∧
        (releaseStep s).block.lastResult = resultDropped s.block.pendFail)) := by
  rw [releaseStep_eq]
  cases hk : s.block.pendKind <;> simp [releasedBlock, hk]

/-- Settles O52: of the turns FETCH and RELEASE alone write these registers; commands and bystanders do not. -/
theorem reportsChangeInFetchAndReleaseOnly : Obligations.ReportsChangeInFetchAndReleaseOnly := by
  intro s t h hr
  rcases (step_next_effect h).by_agent_of_no_reset hr with ⟨hm, ht⟩ | hc | hb
  · rcases ht.by_phase with rfl | ⟨hs, rfl⟩ | ⟨hs, u, -, rfl⟩ | ⟨-, -, hf, -⟩ | ⟨hs, rfl⟩
    · exact .inl ⟨rfl, rfl, rfl, rfl⟩
    · exact .inr (.inl ⟨hm, hs, .inr ⟨rfl, rfl⟩, rfl, rfl⟩)
    · exact .inr (.inl ⟨hm, hs, .inl ⟨rfl, rfl⟩, rfl, rfl⟩)
    · exact .inl ⟨hf.framesAttempted, hf.framesOk, hf.framesDropped, hf.lastResult⟩
    · obtain ⟨hattempted, hreport⟩ := releaseStep_reports s.pop
      exact .inr (.inr ⟨hm, hs, hattempted, hreport.imp And.right And.right⟩)
  · left
    rw [hc.block_eq]
    exact ⟨rfl, rfl, rfl, rfl⟩
  · left
    obtain ⟨e, he⟩ := hb.block
    rw [he]
    exact ⟨rfl, rfl, rfl, rfl⟩

/-! ## Events and `cmd_err` (spec/10_state.md R20, spec/60_exceptions.md R110, R116) -/

/-- The events that set `cmd_err`. -/
def isAccessEvent (e : Event) : Prop := e = .hostAccessError ∨ ∃ w, e = .illegalCommand w

/-- No event clears `cmd_err`, and those of the host's accesses set it. -/
theorem eventEffect_cmdErr (e : Event) (b : Block) :
    (eventEffect e b).cmdErr = true ↔ b.cmdErr = true ∨ isAccessEvent e := by
  cases e <;> simp [eventEffect, isAccessEvent]

/-- At most one event was raised, and `cmd_err` is as it was or as that event leaves it. -/
def raisesAtMostOne (s t : State) : Prop :=
  (t.events = s.events ∧ t.block.cmdErr = s.block.cmdErr) ∨
  ∃ e, t.events = s.events ++ [e] ∧ t.block.cmdErr = (eventEffect e s.block).cmdErr

theorem TurnEffect.raisesAtMostOne {s t : State} (h : TurnEffect s t) : raisesAtMostOne s t := by
  cases h with
  | inputEnded | uncorrectable => exact .inr ⟨_, rfl, rfl⟩
  | released => exact .inl ⟨rfl, by rw [releaseStep_eq]; rfl⟩
  | idle | fatal | inputWaits | acquired | deinterleaved | corrected | reinterleaved | emitted | sinkWaits =>
    exact .inl ⟨rfl, rfl⟩

theorem CommandEffect.raisesAtMostOne {s t : State} (h : CommandEffect s t) : raisesAtMostOne s t := by
  cases h with
  | turnedAway w => exact .inr ⟨_, rfl, rfl⟩
  | nothing | started | cancelled | cancelDeferred | swapped | swapDeferred => exact .inl ⟨rfl, rfl⟩

/-- Every step but a reset raises one event at most. -/
theorem StepEffect.raisesAtMostOne {s t : State} (h : StepEffect s t) :
    (resetMoves s ∧ t = resetBlock s.pop) ∨ raisesAtMostOne s t := by
  cases h with
  | wasReset hm => exact .inl ⟨hm, rfl⟩
  | turn _ he => exact .inr he.raisesAtMostOne
  | command _ _ _ _ _ _ he => exact .inr he.raisesAtMostOne
  | turnedAway | rejected | readRejected => exact .inr (.inr ⟨_, rfl, rfl⟩)
  | ignored | read | delivered | streamEnded | sinkSet => exact .inr (.inl ⟨rfl, rfl⟩)

/-- A reset raises CodecConstructionFailure, or nothing. -/
theorem resetEvents_cases (c : Config) : resetEvents c = [] ∨ resetEvents c = [.codecConstructionFailure] := by
  cases hc : c.codecConfigOk <;> simp [resetEvents, hc]

/-- Settles O53: a reset raises one event at most, and so does every other step. -/
theorem atMostOneEventAStep : Obligations.AtMostOneEventAStep := by
  intro s t h
  rcases (step_next_effect h).raisesAtMostOne with ⟨-, rfl⟩ | ⟨he, -⟩ | ⟨e, he, -⟩
  · rcases resetEvents_cases s.pop.config with he | he
    · exact .inl (by rw [resetBlock_events, he, List.append_nil, pop_events])
    · exact .inr ⟨_, by rw [resetBlock_events, he, pop_events]⟩
  · exact .inl he
  · exact .inr ⟨e, he⟩

/-- The one event appended to a record is determined by it. -/
theorem eq_of_append_singleton {l : List Event} {e e' : Event} (h : l ++ [e] = l ++ [e']) : e = e' :=
  List.singleton_inj.mp (List.append_cancel_left h)

/-- Settles O49: short of a reset `cmd_err` follows the one event; a reset clears it and raises no event of an access. -/
theorem cmdErrIsSticky : Obligations.CmdErrIsSticky := by
  intro s t h
  rcases (step_next_effect h).raisesAtMostOne with ⟨hm, rfl⟩ | ⟨he, hc⟩ | ⟨e, he, hc⟩
  · refine ⟨fun _ hr => absurd hm hr, fun _ hset => (by cases hset), fun e' he' ha => ?_⟩
    have hreset : resetEvents s.pop.config = [e'] := List.append_cancel_left he'
    rcases resetEvents_cases s.pop.config with hn | hn <;> rw [hn] at hreset <;> cases hreset
    simp at ha
  · refine ⟨fun hs _ => hc.trans hs, fun hs hset => ?_, fun e' he' _ => ?_⟩
    · rw [hc, hs] at hset
      cases hset
    · simp [he] at he'
  · refine ⟨fun hs _ => hc.trans ((eventEffect_cmdErr e _).mpr (.inl hs)), fun hs hset => ⟨e, he, ?_⟩, fun e' he' ha => ?_⟩
    · exact ((eventEffect_cmdErr e _).mp (hc.symm.trans hset)).resolve_left (by simp [hs])
    · rw [eq_of_append_singleton (he'.symm.trans he)] at ha
      exact hc.trans ((eventEffect_cmdErr e _).mpr (.inr ha))

end Sys2Proof.Machine
end

section
/-!
PROOF. What every step keeps (spec/10_state.md R14 to R28, spec/42_orchestrator.md R87 to R90, spec/43_io_adapter_commands.md
R107, R108): each invariant for a turn, a command, a reset and a bystander's move, and all of them together.
-/

namespace Sys2Proof.Machine

/-- A property that turns, commands, resets and bystanders keep is kept by every step. -/
theorem step_keeps {P : State → Prop}
    (turn : ∀ {s t : State}, TurnEffect s t → P s → P t)
    (command : ∀ {s t : State}, CommandEffect s t → P s → P t)
    (reset : ∀ s : State, P s → P (resetBlock s))
    (bystander : ∀ {s t : State}, Bystands s t → P s → P t)
    {s t : State} (hs : P s) (h : step s = .next t) : P t := by
  have hpop : P s.pop := bystander (Bystands.refl s.pop).of_pop hs
  rcases (step_next_effect h).by_agent with ⟨-, ht⟩ | ⟨_, _, _, -, -, -, hc⟩ | ⟨-, rfl⟩ | hb
  · exact turn ht hpop
  · exact command hc hpop
  · exact reset _ hpop
  · exact bystander hb hs

/-! ## The classes of `state` after each step -/

theorem not_inProgress_of_atBoundary {b : Block} (h : b.atBoundary = true) : ¬ b.inProgress = true := fun hp =>
  not_atBoundary_of_inProgress hp h

theorem not_fatal_of_inProgress {b : Block} (h : b.inProgress = true) : b.state ≠ codeFatal := by
  rcases (inProgress_iff b).mp h with hs | hs | hs | hs | hs <;> rw [hs] <;> decide

/-- RELEASE ends at a boundary. -/
theorem atBoundary_releaseStep (s : State) : (releaseStep s).block.atBoundary = true :=
  (atBoundary_iff _).mpr (endCycle_state _)

/-- A reset ends no frame in a frame. -/
theorem not_inProgress_reset (c : Config) : ¬ (Block.reset c).inProgress = true := by
  rw [inProgress_iff]
  rcases reset_state c with h | h <;> rw [h] <;> decide

/-! ## The indices (spec/10_state.md R15, R23) -/

/-- The codeword index and the latched failure index are 0 to 4. -/
def indicesInRange (b : Block) : Prop := b.cwIdx.toNat ≤ 4 ∧ b.pendFail.toNat ≤ 4

/-- The index after a corrected codeword. -/
theorem acceptCodeword_cwIdx {s : State} {k : Fin 5} (hk : s.block.cwIdx.toNat = k.val) (msg : Codeword) :
    (acceptCodeword k msg s).block.cwIdx.toNat = if k.val = 4 then 4 else k.val + 1 := by
  have hlt := k.isLt
  rw [acceptCodeword_eq hk, withBlock_block]
  split
  · rfl
  · exact (BitVec.toNat_ofNat ..).trans (Nat.mod_eq_of_lt (by omega))

theorem TurnEffect.indicesInRange {s t : State} (h : TurnEffect s t) (hs : indicesInRange s.block) :
    indicesInRange t.block := by
  cases h with
  | idle | fatal | inputWaits | inputEnded | acquired | reinterleaved | sinkWaits => exact hs
  | deinterleaved => exact ⟨Nat.zero_le 4, hs.2⟩
  | corrected k msg _ hk =>
    refine ⟨?_, hs.2⟩
    rw [acceptCodeword_cwIdx (s := recordCall s.block.cwIdx s.block.cw[k] s) hk]
    have hlt := k.isLt
    split <;> omega
  | uncorrectable => exact ⟨hs.1, hs.1⟩
  | emitted => exact ⟨hs.1, Nat.zero_le 4⟩
  | released =>
    rw [releaseStep_eq]
    exact hs

theorem CommandEffect.indicesInRange {s t : State} (h : CommandEffect s t) (hs : indicesInRange s.block) :
    indicesInRange t.block := by
  rw [h.block_eq]
  exact hs

/-! ## Control fields (spec/10_state.md R14 to R19, spec/43_io_adapter_commands.md R107) -/

theorem ControlLegal.fatal_eq_false {b : Block} (h : ControlLegal b) (hs : b.state ≠ codeFatal) : b.fatal = false :=
  Bool.eq_false_iff.mpr fun hf => hs (h.fatalTellsState.mp hf)

theorem ControlLegal.indicesInRange {b : Block} (h : ControlLegal b) : indicesInRange b :=
  ⟨h.cwIdxRange, h.pendFailRange⟩

/-- At a boundary no request is pending. -/
theorem ControlLegal.no_requests {b : Block} (h : ControlLegal b) (hb : b.atBoundary = true) :
    b.swapPending = false ∧ b.cancelPending = false :=
  ⟨Bool.eq_false_iff.mpr fun hs => not_inProgress_of_atBoundary hb (h.swapInFrame hs),
   Bool.eq_false_iff.mpr fun hc => not_inProgress_of_atBoundary hb (h.cancelInFrame hc)⟩

/-- In a frame every request and every mode is legal. -/
theorem controlLegal_of_inProgress {b : Block} (hp : b.inProgress = true) (hi : indicesInRange b)
    (hf : b.fatal = false) : ControlLegal b where
  stateCode := by rcases (inProgress_iff b).mp hp with hs | hs | hs | hs | hs <;> rw [hs] <;> decide
  cwIdxRange := hi.1
  pendFailRange := hi.2
  fatalTellsState := by simp only [hf, Bool.false_eq_true, false_iff]; exact not_fatal_of_inProgress hp
  swapInFrame := fun _ => hp
  cancelInFrame := fun _ => hp
  runWorks := fun _ => ⟨not_idle_of_inProgress hp, not_fatal_of_inProgress hp⟩

/-- At a boundary no request may be pending, and the continuous mode is on in FETCH only. -/
theorem controlLegal_of_atBoundary {b : Block} (hb : b.atBoundary = true) (hi : indicesInRange b)
    (hf : b.fatal = false) (hreq : b.swapPending = false ∧ b.cancelPending = false)
    (hrun : b.run = true → b.state = codeFetch) : ControlLegal b where
  stateCode := by rcases (atBoundary_iff b).mp hb with hs | hs <;> rw [hs] <;> decide
  cwIdxRange := hi.1
  pendFailRange := hi.2
  fatalTellsState := by rcases (atBoundary_iff b).mp hb with hs | hs <;> rw [hf, hs] <;> decide
  swapInFrame := fun h => absurd h (by simp [hreq.1])
  cancelInFrame := fun h => absurd h (by simp [hreq.2])
  runWorks := fun h => by rw [hrun h]; decide

theorem TurnEffect.controlLegal {s t : State} (h : TurnEffect s t) (hs : ControlLegal s.block) :
    ControlLegal t.block := by
  have hi := h.indicesInRange hs.indicesInRange
  rcases h.by_phase with rfl | ⟨hc, rfl⟩ | ⟨hc, u, -, rfl⟩ | ⟨hp, -, hf, -⟩ | ⟨hc, rfl⟩
  · exact hs
  · have hreq := hs.no_requests ((atBoundary_iff _).mpr (.inr hc))
    exact controlLegal_of_atBoundary rfl hi (hs.fatal_eq_false (by rw [hc]; decide)) hreq nofun
  · exact controlLegal_of_inProgress rfl hi (hs.fatal_eq_false (by rw [hc]; decide))
  · exact controlLegal_of_inProgress hf.inProgress hi (hf.fatal.trans (hs.fatal_eq_false (not_fatal_of_inProgress hp)))
  · have hfatal : (releaseStep s).block.fatal = false := by
      rw [releaseStep_eq]
      exact hs.fatal_eq_false (by rw [hc]; decide)
    refine controlLegal_of_atBoundary (atBoundary_releaseStep s) hi hfatal ?_ ?_ <;> rw [releaseStep_eq]
    · cases hstop : s.block.cancelPending <;> simp [releasedBlock, hstop]
    · cases hstop : (s.block.cancelPending || !s.block.run) <;> simp [releasedBlock, hstop]

theorem CommandEffect.controlLegal {s t : State} (h : CommandEffect s t) (hs : ControlLegal s.block) :
    ControlLegal t.block := by
  have hi := h.indicesInRange hs.indicesInRange
  cases h with
  | nothing => exact hs
  | turnedAway | swapped =>
    exact ⟨hs.stateCode, hi.1, hi.2, hs.fatalTellsState, hs.swapInFrame, hs.cancelInFrame, hs.runWorks⟩
  | started continuous hc =>
    have hreq := hs.no_requests ((atBoundary_iff _).mpr (.inl hc))
    exact controlLegal_of_atBoundary rfl hi (hs.fatal_eq_false (by rw [hc]; decide)) hreq fun _ => rfl
  | cancelled hc =>
    have hreq := hs.no_requests ((atBoundary_iff _).mpr (.inr hc))
    exact controlLegal_of_atBoundary rfl hi (hs.fatal_eq_false (by rw [hc]; decide)) ⟨hreq.1, rfl⟩ nofun
  | cancelDeferred hp | swapDeferred _ hp =>
    exact controlLegal_of_inProgress hp hi (hs.fatal_eq_false (not_fatal_of_inProgress hp))

/-- A reset leaves IDLE without the flag, or FATAL with it. -/
theorem controlLegal_reset (c : Config) : ControlLegal (Block.reset c) where
  stateCode := by rcases reset_state c with h | h <;> rw [h] <;> decide
  cwIdxRange := Nat.zero_le 4
  pendFailRange := Nat.zero_le 4
  fatalTellsState := by cases hc : c.codecConfigOk <;> simp [Block.reset, hc]
  swapInFrame := nofun
  cancelInFrame := nofun
  runWorks := nofun

theorem Bystands.controlLegal {s t : State} (h : Bystands s t) (hs : ControlLegal s.block) : ControlLegal t.block := by
  obtain ⟨e, he⟩ := h.block
  rw [he]
  exact ⟨hs.stateCode, hs.cwIdxRange, hs.pendFailRange, hs.fatalTellsState, hs.swapInFrame, hs.cancelInFrame, hs.runWorks⟩

/-- Settles O41: a frame admits every request and mode, a boundary none but the mode of FETCH. -/
theorem stepsKeepControlLegal : Obligations.StepsKeepControlLegal := fun _ _ =>
  step_keeps (P := fun s => ControlLegal s.block) TurnEffect.controlLegal CommandEffect.controlLegal
    (fun s _ => controlLegal_reset s.config) Bystands.controlLegal

/-! ## Counters (spec/10_state.md R28) -/

theorem countersBalance_of_inProgress {b : Block} (hp : b.inProgress = true)
    (h : b.framesAttempted = b.framesOk + b.framesDropped + 1#32) : CountersBalance b :=
  ⟨fun hb => absurd hp (not_inProgress_of_atBoundary hb), fun _ => h⟩

theorem countersBalance_of_atBoundary {b : Block} (hb : b.atBoundary = true)
    (h : b.framesAttempted = b.framesOk + b.framesDropped) : CountersBalance b :=
  ⟨fun _ => h, fun hp => absurd hp (not_inProgress_of_atBoundary hb)⟩

theorem TurnEffect.countersBalance {s t : State} (h : TurnEffect s t) (hs : CountersBalance s.block) :
    CountersBalance t.block := by
  rcases h.by_phase with rfl | ⟨hc, rfl⟩ | ⟨hc, u, -, rfl⟩ | ⟨hp, -, hf, -⟩ | ⟨hc, rfl⟩
  · exact hs
  · exact countersBalance_of_atBoundary rfl (hs.atBoundary ((atBoundary_iff _).mpr (.inr hc)))
  · exact countersBalance_of_inProgress rfl
      (congrArg (· + 1#32) (hs.atBoundary ((atBoundary_iff _).mpr (.inr hc))))
  · refine countersBalance_of_inProgress hf.inProgress ?_
    rw [hf.framesAttempted, hf.framesOk, hf.framesDropped]
    exact hs.inFrame hp
  · refine countersBalance_of_atBoundary (atBoundary_releaseStep s) ?_
    have hb := hs.inFrame (inProgress_of_state hc (by decide))
    obtain ⟨ha, ⟨-, hok, hdropped, -⟩ | ⟨-, hok, hdropped, -⟩⟩ := releaseStep_reports s <;>
      rw [ha, hok, hdropped, hb] <;> ac_rfl

theorem CommandEffect.countersBalance {s t : State} (h : CommandEffect s t) (hs : CountersBalance s.block) :
    CountersBalance t.block := by
  cases h with
  | nothing => exact hs
  | turnedAway | cancelDeferred | swapped | swapDeferred => exact ⟨hs.atBoundary, hs.inFrame⟩
  | started _ hc => exact countersBalance_of_atBoundary rfl (hs.atBoundary ((atBoundary_iff _).mpr (.inl hc)))
  | cancelled hc => exact countersBalance_of_atBoundary rfl (hs.atBoundary ((atBoundary_iff _).mpr (.inr hc)))

theorem countersBalance_reset (c : Config) : CountersBalance (Block.reset c) :=
  ⟨fun _ => rfl, fun hp => absurd hp (not_inProgress_reset c)⟩

theorem Bystands.countersBalance {s t : State} (h : Bystands s t) (hs : CountersBalance s.block) :
    CountersBalance t.block := by
  obtain ⟨e, he⟩ := h.block
  rw [he]
  exact ⟨hs.atBoundary, hs.inFrame⟩

/-- Settles O42: FETCH counts the frame at its start and RELEASE its outcome at its end. -/
theorem stepsKeepCountersBalanced : Obligations.StepsKeepCountersBalanced := fun _ _ =>
  step_keeps (P := fun s => CountersBalance s.block) TurnEffect.countersBalance CommandEffect.countersBalance
    (fun s _ => countersBalance_reset s.config) Bystands.countersBalance

/-! ## Reports (spec/10_state.md R26) -/

/-- The report of an emitted frame as a word. -/
theorem resultOk_eq : resultOk = 0x27DCFF01#32 := by rfl

/-- The report of a dropped frame as a word: the index stands above the two bits of KIND. -/
theorem resultDropped_eq (k : BitVec 3) : resultDropped k = 0x0004FF02#32 + BitVec.ofNat 32 (4 * k.toNat) := by
  revert k
  decide

theorem ReportLegal.indicesInRange {b : Block} (h : ReportLegal b) : indicesInRange b :=
  ⟨h.cwIdxRange, h.pendFailRange⟩

theorem TurnEffect.reportLegal {s t : State} (h : TurnEffect s t) (hs : ReportLegal s.block) : ReportLegal t.block := by
  obtain ⟨hcw, hfail⟩ := h.indicesInRange hs.indicesInRange
  refine ⟨hfail, hcw, ?_⟩
  rcases h.by_phase with rfl | ⟨-, rfl⟩ | ⟨-, u, -, rfl⟩ | ⟨-, -, hf, -⟩ | ⟨-, rfl⟩
  · exact hs.word
  · exact .inr (.inr (.inl rfl))
  · exact hs.word
  · rw [hf.lastResult]
    exact hs.word
  · obtain ⟨-, ⟨-, -, -, hw⟩ | ⟨-, -, -, hw⟩⟩ := releaseStep_reports s <;> rw [hw]
    · exact .inr (.inl resultOk_eq)
    · exact .inr (.inr (.inr ⟨⟨s.block.pendFail.toNat, Nat.lt_succ_of_le hs.pendFailRange⟩, resultDropped_eq _⟩))

theorem CommandEffect.reportLegal {s t : State} (h : CommandEffect s t) (hs : ReportLegal s.block) :
    ReportLegal t.block := by
  rw [h.block_eq]
  exact ⟨hs.pendFailRange, hs.cwIdxRange, hs.word⟩

theorem reportLegal_reset (c : Config) : ReportLegal (Block.reset c) :=
  ⟨Nat.zero_le 4, Nat.zero_le 4, .inl rfl⟩

theorem Bystands.reportLegal {s t : State} (h : Bystands s t) (hs : ReportLegal s.block) : ReportLegal t.block := by
  obtain ⟨e, he⟩ := h.block
  rw [he]
  exact ⟨hs.pendFailRange, hs.cwIdxRange, hs.word⟩

/-- Settles O43: FETCH and RELEASE write the words of the table, and the index of a drop is that of a codeword. -/
theorem stepsKeepReportsLegal : Obligations.StepsKeepReportsLegal := fun _ _ =>
  step_keeps (P := fun s => ReportLegal s.block) TurnEffect.reportLegal CommandEffect.reportLegal
    (fun s _ => reportLegal_reset s.config) Bystands.reportLegal

/-! ## The unit of the frame (spec/43_io_adapter_commands.md R97, R108) -/

theorem frameHeld_of_not_inProgress {s : State} (h : ¬ s.block.inProgress = true) : FrameHeld s :=
  fun hp => absurd hp h

theorem TurnEffect.frameHeld {s t : State} (h : TurnEffect s t) (hs : FrameHeld s) : FrameHeld t := by
  rcases h.by_phase with rfl | ⟨-, rfl⟩ | ⟨-, u, hu, rfl⟩ | ⟨hp, -, hf, hsrc⟩ | ⟨-, rfl⟩
  · exact hs
  · exact frameHeld_of_not_inProgress nofun
  · exact fun _ => hu
  · intro _
    rw [hsrc, hf.srcId, hf.inBuf]
    exact hs hp
  · exact frameHeld_of_not_inProgress (not_inProgress_of_atBoundary (atBoundary_releaseStep s))

theorem CommandEffect.frameHeld {s t : State} (h : CommandEffect s t) (hs : FrameHeld s) : FrameHeld t := by
  cases h with
  | nothing | turnedAway | cancelDeferred | swapDeferred => exact hs
  | started | cancelled => exact frameHeld_of_not_inProgress nofun
  | swapped _ hb => exact frameHeld_of_not_inProgress (not_inProgress_of_atBoundary hb)

/-- A bystander's move leaves every head unit in its place. -/
theorem Bystands.frameHeld {s t : State} (h : Bystands s t) (hs : FrameHeld s) : FrameHeld t := by
  obtain ⟨e, he⟩ := h.block
  unfold FrameHeld
  rw [he]
  exact fun hp => h.heads _ _ (hs hp)

/-- Settles O44: the unit is stored as it stands at the head, and only RELEASE removes it or replaces the source. -/
theorem stepsKeepTheFrameHeld : Obligations.StepsKeepTheFrameHeld := fun _ _ =>
  step_keeps TurnEffect.frameHeld CommandEffect.frameHeld
    (fun s _ => frameHeld_of_not_inProgress (not_inProgress_reset s.config)) Bystands.frameHeld

end Sys2Proof.Machine
end

section
/-!
PROOF. The buffers on the way of a frame (spec/42_orchestrator.md R87 to R91, R94): what each step rule makes of the unit in
IN_BUF, what reaches the sink, and all invariants together.
-/

namespace Sys2Proof.Machine

/-! ## The first failing codeword (spec/41_codec_port.md R80) -/

theorem firstFailure_eq_none {c : Config} {rows : Rows} :
    firstFailure c rows = none ↔ ∀ k : Fin 5, correctable c rows[k] = true := by
  simp [firstFailure, List.find?_eq_none]

theorem firstFailure_eq_some {c : Config} {rows : Rows} {k : Fin 5} :
    firstFailure c rows = some k ↔
      correctable c rows[k] = false ∧ ∀ j : Fin 5, j.val < k.val → correctable c rows[j] = true := by
  simp only [firstFailure, List.find?_eq_some_iff_getElem, List.getElem_finRange, List.length_finRange,
    Bool.not_eq_true', Bool.not_not]
  refine and_congr_right fun _ => ⟨?_, fun h => ⟨k.val, k.isLt, rfl, fun j hj => h ⟨j, by omega⟩ hj⟩⟩
  rintro ⟨i, hi, rfl, h⟩ j hj
  exact h j.val hj

/-! ## One step of the path -/

/-- The buffers matter in DECODE, REINT, EMIT and RELEASE only. -/
theorem framePath_of_other {c : Config} {b : Block} {code : BitVec 4} (hs : b.state = code)
    (hc : code = codeIdle ∨ code = codeFetch ∨ code = codeDeint ∨ code = codeFatal) : FramePath c b := by
  rcases hc with rfl | rfl | rfl | rfl <;> constructor <;> intro h <;> exact absurd (hs.symm.trans h) (by decide)

theorem framePath_of_decode {c : Config} {b : Block} (hs : b.state = codeDecode)
    (h : CorrectedBelow c b b.cwIdx.toNat) : FramePath c b where
  inDecode := fun _ => h
  inReint := fun e => absurd (hs.symm.trans e) (by decide)
  inEmit := fun e => absurd (hs.symm.trans e) (by decide)
  inRelease := fun e => absurd (hs.symm.trans e) (by decide)

theorem framePath_of_reint {c : Config} {b : Block} (hs : b.state = codeReint)
    (h : CorrectedBelow c b 5) : FramePath c b where
  inDecode := fun e => absurd (hs.symm.trans e) (by decide)
  inReint := fun _ => h
  inEmit := fun e => absurd (hs.symm.trans e) (by decide)
  inRelease := fun e => absurd (hs.symm.trans e) (by decide)

theorem framePath_of_emit {c : Config} {b : Block} (hs : b.state = codeEmit)
    (hf : firstFailure c (codewordsOf c b.inBuf) = none) (ho : b.outBuf = decodedFrame c b.inBuf) : FramePath c b where
  inDecode := fun e => absurd (hs.symm.trans e) (by decide)
  inReint := fun e => absurd (hs.symm.trans e) (by decide)
  inEmit := fun _ => ⟨hf, ho⟩
  inRelease := fun e => absurd (hs.symm.trans e) (by decide)

/-- In RELEASE the latch holds the outcome of the first failing codeword. -/
theorem framePath_of_release {c : Config} {b : Block} (hs : b.state = codeRelease)
    (hok : firstFailure c (codewordsOf c b.inBuf) = none → b.pendKind = .ok ∧ b.pendFail = 0#3)
    (hdrop : ∀ k, firstFailure c (codewordsOf c b.inBuf) = some k →
      b.pendKind = .dropped ∧ b.pendFail = BitVec.ofNat 3 k.val) : FramePath c b where
  inDecode := fun e => absurd (hs.symm.trans e) (by decide)
  inReint := fun e => absurd (hs.symm.trans e) (by decide)
  inEmit := fun e => absurd (hs.symm.trans e) (by decide)
  inRelease := fun _ => by
    split
    · next h => exact hok h
    · next k h => exact hdrop k h

/-- Correcting codeword `k` and writing its row adds it to the rows corrected so far. -/
theorem CorrectedBelow.succ {c : Config} {b b' : Block} {k : Fin 5} {msg : Codeword} (h : CorrectedBelow c b k.val)
    (ha : callCodec c.codec b.cw[k] = .answer true msg) (hin : b'.inBuf = b.inBuf) (hcw : b'.cw = b.cw)
    (hcc : b'.cc = b.cc.set k msg) : CorrectedBelow c b' (k.val + 1) := by
  obtain ⟨hrows, hdone⟩ := h
  refine ⟨by rw [hcw, hin, hrows], fun j hj => ?_⟩
  rw [hcw, hcc]
  by_cases hjk : j = k
  · subst hjk
    exact ⟨correctable_of_answer ha, (Vector.getElem_set_self _).trans (corrected_of_answer ha).symm⟩
  · have hne : k.val ≠ j.val := fun e => hjk (Fin.ext e.symm)
    obtain ⟨hok, hrow⟩ := hdone j (by omega)
    exact ⟨hok, by simpa [hne] using hrow⟩

/-- All five rows corrected are the decoded frame's codewords. -/
theorem CorrectedBelow.cc_eq {c : Config} {b : Block} (h : CorrectedBelow c b 5) :
    b.cc = tabulate 5 fun k => corrected c (codewordsOf c b.inBuf)[k] := by
  obtain ⟨hrows, hdone⟩ := h
  refine Vector.ext fun k hk => ?_
  rw [getElem_tabulate, ← hrows]
  exact (hdone ⟨k, hk⟩ hk).2

theorem CorrectedBelow.firstFailure_eq_none {c : Config} {b : Block} (h : CorrectedBelow c b 5) :
    firstFailure c (codewordsOf c b.inBuf) = none := by
  obtain ⟨hrows, hdone⟩ := h
  rw [← hrows]
  exact Machine.firstFailure_eq_none.mpr fun k => (hdone k k.isLt).1

/-- The block after a corrected codeword, where the whole message is written. -/
theorem framePath_acceptCodeword {s : State} {k : Fin 5} {msg : Codeword} (hw : s.config.codecWriteLen = 255)
    (hpath : FramePath s.config s.block) (hs : s.block.state = codeDecode) (hk : s.block.cwIdx.toNat = k.val)
    (ha : callCodec s.config.codec s.block.cw[k] = .answer true msg) :
    FramePath s.config (acceptCodeword k msg s).block := by
  have hbelow := hpath.inDecode hs
  rw [hk] at hbelow
  have hcc : (acceptCodeword k msg s).block.cc = s.block.cc.set k msg := by
    rw [acceptCodeword_eq hk, hw, writtenRow_full, withBlock_block]
  have hsucc : CorrectedBelow s.config (acceptCodeword k msg s).block (k.val + 1) := hbelow.succ ha rfl rfl hcc
  have hidx := acceptCodeword_cwIdx hk msg
  by_cases hlast : k.val = 4
  · refine framePath_of_reint ?_ (by rwa [hlast] at hsucc)
    rw [acceptCodeword_eq hk, withBlock_block, if_pos hlast]
  · refine framePath_of_decode ?_ (by rwa [hidx, if_neg hlast])
    rw [acceptCodeword_eq hk, withBlock_block, if_neg hlast]
    exact hs

theorem TurnEffect.framePath {s t : State} (h : TurnEffect s t) (hw : s.config.codecWriteLen = 255)
    (hs : FramePath s.config s.block) : FramePath t.config t.block := by
  rw [h.config_eq]
  cases h with
  | idle | fatal | inputWaits | sinkWaits => exact hs
  | inputEnded => exact framePath_of_other (code := codeIdle) rfl (by decide)
  | acquired => exact framePath_of_other (code := codeDeint) rfl (by decide)
  | deinterleaved => exact framePath_of_decode rfl ⟨rfl, fun k hk => absurd hk (Nat.not_lt_zero _)⟩
  | corrected k msg hc hk ha =>
    exact framePath_acceptCodeword (s := recordCall s.block.cwIdx s.block.cw[k] s) hw hs hc hk ha
  | uncorrectable k msg hc hk ha =>
    obtain ⟨hrows, hdone⟩ := hs.inDecode hc
    rw [hk] at hdone
    have hfail : firstFailure s.config (codewordsOf s.config s.block.inBuf) = some k := by
      rw [← hrows]
      exact firstFailure_eq_some.mpr ⟨correctable_of_answer ha, fun j hj => (hdone j hj).1⟩
    refine framePath_of_release rfl (fun hnone => ?_) fun j hj => ?_
    · exact absurd (hfail.symm.trans hnone) nofun
    · cases hfail.symm.trans hj
      exact ⟨rfl, cwIdx_eq_ofNat hk⟩
  | reinterleaved hc =>
    have hall := hs.inReint hc
    exact framePath_of_emit rfl hall.firstFailure_eq_none (congrArg (reinterleave s.config) hall.cc_eq)
  | emitted hc =>
    obtain ⟨hnone, -⟩ := hs.inEmit hc
    exact framePath_of_release rfl (fun _ => ⟨rfl, rfl⟩) fun k hk => absurd (hnone.symm.trans hk) nofun
  | released =>
    rcases (atBoundary_iff _).mp (atBoundary_releaseStep s) with hb | hb
    · exact framePath_of_other hb (by decide)
    · exact framePath_of_other hb (by decide)

theorem CommandEffect.framePath {s t : State} (h : CommandEffect s t) (hs : FramePath s.config s.block) :
    FramePath t.config t.block := by
  rw [h.config_eq]
  cases h with
  | nothing => exact hs
  | turnedAway | cancelDeferred | swapped | swapDeferred => exact ⟨hs.inDecode, hs.inReint, hs.inEmit, hs.inRelease⟩
  | started => exact framePath_of_other (code := codeFetch) rfl (by decide)
  | cancelled => exact framePath_of_other (code := codeIdle) rfl (by decide)

theorem framePath_reset (c : Config) : FramePath c (Block.reset c) := by
  rcases reset_state c with h | h
  · exact framePath_of_other h (by decide)
  · exact framePath_of_other h (by decide)

theorem Bystands.framePath {s t : State} (h : Bystands s t) (hs : FramePath s.config s.block) :
    FramePath t.config t.block := by
  obtain ⟨e, he⟩ := h.block
  rw [he, h.config]
  exact ⟨hs.inDecode, hs.inReint, hs.inEmit, hs.inRelease⟩

/-- The path is kept together with the length it rests on, which no step changes. -/
theorem step_keeps_framePath {s t : State} (hw : s.config.codecWriteLen = 255) (hs : FramePath s.config s.block)
    (h : step s = .next t) : t.config.codecWriteLen = 255 ∧ FramePath t.config t.block :=
  step_keeps (P := fun s => s.config.codecWriteLen = 255 ∧ FramePath s.config s.block)
    (fun ht hP => ⟨by rw [ht.config_eq]; exact hP.1, ht.framePath hP.1 hP.2⟩)
    (fun hc hP => ⟨by rw [hc.config_eq]; exact hP.1, hc.framePath hP.2⟩)
    (fun s hP => ⟨hP.1, framePath_reset s.config⟩)
    (fun hb hP => ⟨by rw [hb.config]; exact hP.1, hb.framePath hP.2⟩)
    ⟨hw, hs⟩ h

/-- Settles O45: each step rule hands the next one what it rests on. -/
theorem stepsKeepTheFramePath : Obligations.StepsKeepTheFramePath := fun _ _ hw hs h =>
  (step_keeps_framePath hw hs h).2

/-! ## The sink (spec/42_orchestrator.md R94) -/

/-- Of the turns EMIT alone pushes a frame, and it is OUT_BUF. -/
theorem TurnEffect.sink_cases {s t : State} (h : TurnEffect s t) :
    t.sink = s.sink ∨ (s.block.state = codeEmit ∧ t.sink = s.sink ++ [s.block.outBuf]) := by
  cases h with
  | emitted hs => exact .inr ⟨hs, rfl⟩
  | idle | fatal | inputWaits | inputEnded | acquired | deinterleaved | corrected | uncorrectable | reinterleaved
  | sinkWaits | released => exact .inl rfl

/-- Settles O48: in EMIT OUT_BUF is the decoded frame of the unit in IN_BUF, which is still the head unit. -/
theorem theSinkGainsDecodedUnitsOnly : Obligations.TheSinkGainsDecodedUnitsOnly := by
  intro s t hheld hpath h
  rcases (step_next_effect h).by_agent with ⟨hm, ht⟩ | ⟨_, _, _, -, -, -, hc⟩ | ⟨-, rfl⟩ | hb
  · rcases ht.sink_cases with hsink | ⟨hs, hsink⟩
    · exact .inl hsink
    · obtain ⟨hok, hout⟩ := hpath.inEmit hs
      refine .inr ⟨hm, hs, s.block.inBuf, hheld (inProgress_of_state hs (by decide)), hok, ?_⟩
      rw [hsink, pop_sink, pop_block, hout]
  · exact .inl hc.sink_eq
  · exact .inl rfl
  · exact .inl hb.sink

/-! ## All invariants together -/

/-- Under a configuration that writes the whole message the reset block is safe. -/
theorem safe_of_reset {s : State} (hb : s.block = Block.reset s.config) (hw : s.config.codecWriteLen = 255) : Safe s where
  control := hb ▸ controlLegal_reset s.config
  counters := hb ▸ countersBalance_reset s.config
  report := hb ▸ reportLegal_reset s.config
  held := frameHeld_of_not_inProgress (hb ▸ not_inProgress_reset s.config)
  path := hb ▸ framePath_reset s.config
  wholeMessages := hw

/-- Settles O46: power-on is a reset under a configuration that writes 255 bytes. -/
theorem resetIsSafe : Obligations.ResetIsSafe :=
  ⟨safe_of_reset rfl rfl, fun _ hw => safe_of_reset rfl hw⟩

/-- Legal control fields leave no ground for a fault. -/
theorem ControlLegal.no_fault {s : State} (h : ControlLegal s.block) (f : Fault) : step s ≠ .fault f := by
  intro hf
  obtain ⟨-, hr | ⟨-, hk⟩⟩ := (faultsExactlyOnBadState s).mp ⟨f, hf⟩
  · exact absurd h.stateCode (by omega)
  · exact absurd h.cwIdxRange (by omega)

/-- Settles O47: each part of safety is kept, and the control fields are those of no fault. -/
theorem stepsKeepSafety : Obligations.StepsKeepSafety := by
  refine fun s hs => ⟨fun t h => ?_, hs.control.no_fault⟩
  obtain ⟨hw, hpath⟩ := step_keeps_framePath hs.wholeMessages hs.path h
  exact {
    control := stepsKeepControlLegal s t hs.control h
    counters := stepsKeepCountersBalanced s t hs.counters h
    report := stepsKeepReportsLegal s t hs.report h
    held := stepsKeepTheFrameHeld s t hs.held h
    path := hpath
    wholeMessages := hw }

end Sys2Proof.Machine
end

section
/-!
PROOF. The header of a unit (spec/10_state.md R29): the meanings read the payload of the unit in IN_BUF and no more of it, so a
state with another unit of the same payload steps the same way, to a state that differs in that unit at most.
-/

namespace Sys2Proof.Machine

/-! ## Units of the same payload -/

/-- The four header bytes of a unit. -/
def headerOf (u : RawUnit) : Vector Byte 4 := tabulate 4 fun i => u[i]

/-- The payload starts behind the header. -/
theorem payloadOf_withHeader (h : Vector Byte 4) (u : RawUnit) : payloadOf (withHeader h u) = payloadOf u :=
  Vector.ext fun i hi => by simp [payloadOf, withHeader, unitIndex]

/-- A unit is its header before its payload. -/
theorem withHeader_headerOf {u v : RawUnit} (h : payloadOf v = payloadOf u) : withHeader (headerOf v) u = v := by
  refine Vector.ext fun i hi => ?_
  simp only [withHeader, headerOf, getElem_tabulate, Fin.getElem_fin]
  split
  · rfl
  · next hlo =>
    have hget := congrArg (fun p : Frame => p[i - 4]) h
    simp only [payloadOf, getElem_tabulate, unitIndex, Fin.getElem_fin] at hget
    simpa only [Nat.add_sub_cancel' (Nat.le_of_not_lt hlo)] using hget.symm

/-- The state with another unit in IN_BUF. -/
def State.withUnit (v : RawUnit) (s : State) : State := s.withBlock { s.block with inBuf := v }

theorem withHeader_eq_withUnit (h : Vector Byte 4) (s : State) :
    s.withHeader h = s.withUnit (withHeader h s.block.inBuf) := rfl

/-! ## Outcomes that agree but for the header -/

/-- Two outcomes go the same way, and two next states differ in the header of IN_BUF at most. -/
inductive AgreeButHeader : Host.Outcome State Fault Refusal → Host.Outcome State Fault Refusal → Prop where
  | next (t : State) {v : RawUnit} (hv : payloadOf v = payloadOf t.block.inBuf) :
      AgreeButHeader (.next t) (.next (t.withUnit v))
  | fault (f : Fault) : AgreeButHeader (.fault f) (.fault f)
  | refused (r : Refusal) : AgreeButHeader (.refused r) (.refused r)

theorem AgreeButHeader.of_next {t t' : State} {v : RawUnit} (hv : payloadOf v = payloadOf t.block.inBuf)
    (ht : t' = t.withUnit v) : AgreeButHeader (.next t) (.next t') := by
  rw [ht]
  exact .next t hv

theorem AgreeButHeader.next_self (t : State) : AgreeButHeader (.next t) (.next t) :=
  .of_next (v := t.block.inBuf) rfl rfl

theorem AgreeButHeader.exists_next {t : State} {o : Host.Outcome State Fault Refusal} (ho : AgreeButHeader (.next t) o) :
    ∃ h, o = .next (t.withHeader h) := by
  cases ho with
  | next _ hv => exact ⟨headerOf _, by rw [withHeader_eq_withUnit, withHeader_headerOf hv]⟩

theorem AgreeButHeader.eq_fault {f : Fault} {o : Host.Outcome State Fault Refusal} (ho : AgreeButHeader (.fault f) o) :
    o = .fault f := by
  cases ho with
  | fault => rfl

theorem AgreeButHeader.eq_refused {r : Refusal} {o : Host.Outcome State Fault Refusal}
    (ho : AgreeButHeader (.refused r) o) : o = .refused r := by
  cases ho with
  | refused => rfl

/-- A choice whose condition does not look at the unit. -/
theorem AgreeButHeader.ite {c : Prop} [Decidable c] {a a' b b' : State} (ha : AgreeButHeader (.next a) (.next a'))
    (hb : AgreeButHeader (.next b) (.next b')) :
    AgreeButHeader (.next (if c then a else b)) (.next (if c then a' else b')) := by
  split
  · exact ha
  · exact hb

section
variable (s : State) {v : RawUnit} (hv : payloadOf v = payloadOf s.block.inBuf)
include hv

/-! ## The step rules -/

/-- A unit acquired replaces the last one, header and payload. -/
theorem execFetch_agrees : AgreeButHeader (execFetch s) (execFetch (s.withUnit v)) := by
  unfold execFetch
  rcases fetchStep_cases s with ⟨hp, he⟩ | ⟨hp, he⟩ | ⟨u, hp, he⟩
  · rw [he, fetchStep_of_wait (s := s.withUnit v) hp]
    exact .next s hv
  · rw [he, fetchStep_of_ended (s := s.withUnit v) hp]
    exact .of_next hv rfl
  · rw [he, fetchStep_of_unit (s := s.withUnit v) hp]
    exact .next_self (acquireUnit u s)

/-- DEINT reads the payload. -/
theorem deintStep_withUnit : deintStep (s.withUnit v) = (deintStep s).withUnit v := by
  have hp : payloadOf (s.withUnit v).block.inBuf = payloadOf s.block.inBuf := hv
  rw [deintStep, hp]
  rfl

theorem execDecode_agrees : AgreeButHeader (execDecode s) (execDecode (s.withUnit v)) := by
  have hd : execDecode (s.withUnit v) = decodeCodeword (s.withUnit v) := rfl
  rw [hd]
  rcases execDecode_cases s with ⟨hk, he⟩ | ⟨k, hk, ⟨msg, ha, he⟩ | ⟨msg, ha, he⟩ | ⟨bytes, ha, he⟩⟩ <;> rw [he]
  · rw [decodeCodeword_of_badIndex (s := s.withUnit v) hk]
    exact .fault .badState
  · rw [decodeCodeword_of_answer (s := s.withUnit v) hk ha]
    exact .of_next hv rfl
  · rw [decodeCodeword_of_answer (s := s.withUnit v) hk ha]
    exact .of_next hv rfl
  · rw [decodeCodeword_of_malformed (s := s.withUnit v) hk ha]
    exact .refused .portContract

theorem execRelease_agrees : AgreeButHeader (execRelease s) (execRelease (s.withUnit v)) := by
  unfold execRelease
  rw [releaseStep_eq, releaseStep_eq]
  exact .of_next hv rfl

/-! ## Every instruction and every move -/

theorem exec_agrees (i : Instr) : AgreeButHeader (exec i s) (exec i (s.withUnit v)) := by
  cases i with
  | nop | idle | fatal => exact .next s hv
  | processOne | run => exact .ite (.of_next hv rfl) (.of_next hv rfl)
  | cancel => exact .ite (.next s hv) (.ite (.of_next hv rfl) (.ite (.of_next hv rfl) (.of_next hv rfl)))
  | setInput src => exact .ite (.of_next hv rfl) (.ite (.of_next hv rfl) (.of_next hv rfl))
  | fetch => exact execFetch_agrees s hv
  | deint => exact .of_next hv (deintStep_withUnit s hv)
  | decode => exact execDecode_agrees s hv
  | reint => exact .of_next hv rfl
  | emit => exact .ite (.of_next hv rfl) (.next s hv)
  | release => exact execRelease_agrees s hv
  | reservedStep => exact .fault .badState

theorem hostWrite_agrees (offset n : Nat) (w : Word) :
    AgreeButHeader (hostWrite offset n w s) (hostWrite offset n w (s.withUnit v)) := by
  unfold hostWrite
  cases classifyWrite offset n w with
  | command i => exact exec_agrees s hv i
  | illegal | ignored | rejected => exact .of_next hv rfl

/-- No register shows the unit. -/
theorem hostRead_agrees (offset n : Nat) :
    AgreeButHeader (.next (hostRead offset n s)) (.next (hostRead offset n (s.withUnit v))) := by
  have hr : readValue (s.withUnit v).block offset n = readValue s.block offset n := rfl
  unfold hostRead
  rw [hr]
  exact .ite (.of_next hv rfl) (.of_next hv rfl)

theorem deliverUnit_agrees (src : BitVec 8) (bytes : List Byte) :
    AgreeButHeader (deliverUnit src bytes s) (deliverUnit src bytes (s.withUnit v)) := by
  unfold deliverUnit
  split
  · exact .of_next hv rfl
  · exact .refused .portContract

theorem makeMove_agrees (m : Move) : AgreeButHeader (makeMove m s) (makeMove m (s.withUnit v)) := by
  cases m with
  | orchestrator => exact exec_agrees s hv (decodeStep s.block.state)
  | memWrite offset n w => exact hostWrite_agrees s hv offset n w
  | memRead offset n => exact hostRead_agrees s hv offset n
  | reset => exact .next_self (resetBlock s)
  | deliver src bytes => exact deliverUnit_agrees s hv src bytes
  | endStream | sinkReady => exact .of_next hv rfl

theorem step_agrees : AgreeButHeader (step s) (step (s.withUnit v)) := by
  rcases hm : s.agenda with _ | ⟨m, rest⟩
  · rw [step_of_orchestratorMoves (.inl hm), step_of_orchestratorMoves (s := s.withUnit v) (.inl hm)]
    exact exec_agrees s.pop hv (decodeStep s.block.state)
  · rw [step_of_move hm, step_of_move (s := s.withUnit v) hm]
    exact makeMove_agrees (s.withAgenda rest) hv m

end

/-- Settles O54: another header leaves the payload, so the outcomes of the two steps agree but for the header. -/
theorem headerBytesInfluenceNothing : Obligations.HeaderBytesInfluenceNothing := by
  intro s h
  have hagree := step_agrees s (payloadOf_withHeader h s.block.inBuf)
  rw [← withHeader_eq_withUnit] at hagree
  exact ⟨fun t ht => (ht ▸ hagree).exists_next, fun f hf => (hf ▸ hagree).eq_fault,
    fun r hr => (hr ▸ hagree).eq_refused⟩

end Sys2Proof.Machine
end

section
/-!
PROOF. A whole decode cycle with only the orchestrator moving (spec/42_orchestrator.md R93, R94, spec/41_codec_port.md R80): where
the cycle stands after each step, and its end after ten steps, or four after the codeword that failed.
-/

namespace Sys2Proof.Machine

/-! ## The codec calls of a cycle -/

/-- The call for codeword `k`. -/
def callFor (rows : Rows) (k : Fin 5) : CodecCall := { index := BitVec.ofNat 3 k.val, codeword := rows[k] }

/-- The calls for the codewords below `n`, in order. -/
def callsBelow (rows : Rows) (n : Nat) : List CodecCall :=
  ((List.finRange 5).filter fun j => j.val < n).map (callFor rows)

/-- Codeword `k` comes after those below it. -/
theorem callsBelow_succ (rows : Rows) (k : Fin 5) :
    callsBelow rows (k.val + 1) = callsBelow rows k.val ++ [callFor rows k] := by
  have hindices : ∀ k : Fin 5, (List.finRange 5).filter (fun j => j.val < k.val + 1) =
      (List.finRange 5).filter (fun j => j.val < k.val) ++ [k] := by decide
  rw [callsBelow, hindices, List.map_append]
  rfl

/-- The calls up to and including codeword `k`, as the statement writes them. -/
theorem callsThrough_eq (rows : Rows) (k : Fin 5) :
    callsThrough rows k = callsBelow rows k.val ++ [callFor rows k] := by
  rw [← callsBelow_succ]
  simp only [callsThrough, callsBelow, Nat.lt_succ_iff, Fin.le_def]
  rfl

/-! ## One step, and a run of steps -/

theorem pop_of_nil {s : State} (ha : s.agenda = []) : s.pop = s := by
  rw [State.pop, ha, List.tail_nil, ← ha, withAgenda_self]

/-- On an empty agenda a step is the meaning of the step that `state` selects. -/
theorem step_of_nil {s : State} {i : Instr} (ha : s.agenda = []) (hi : decodeStep s.block.state = i) :
    step s = exec i s := by
  rw [step_of_turn (.inl ha) hi, pop_of_nil ha]

/-- A run of `n` steps and one step more. -/
theorem run_snoc {s t t' : State} {n : Nat} (h : Host.Core.run Sys2Proof.core n s = .next t) (hstep : step t = .next t') :
    Host.Core.run Sys2Proof.core (n + 1) s = .next t' := by
  rw [run_add h, run_succ hstep, run_zero]

/-! ## Where a cycle stands -/

/-- The state `t` of the cycle that acquired the unit `u` in `s`: the step `code` is next, `frames` were pushed and `calls` made
on the codec port, and what the frame's steps leave alone is as it was. -/
structure CycleAt (s : State) (u : RawUnit) (code : BitVec 4) (frames : List Frame) (calls : List CodecCall) (t : State) :
    Prop where
  state : t.block.state = code
  agenda : t.agenda = []
  config : t.config = s.config
  sources : t.sources = s.sources
  outReady : t.outReady = true
  frame : SameFrame (acquireUnit u s).block t.block
  path : FramePath s.config t.block
  sink : t.sink = s.sink ++ frames
  codecCalls : t.codecCalls = s.codecCalls ++ calls

theorem TurnEffect.agenda_eq {s t : State} (h : TurnEffect s t) : t.agenda = s.agenda := by
  cases h <;> rfl

theorem TurnEffect.outReady_eq {s t : State} (h : TurnEffect s t) : t.outReady = s.outReady := by
  cases h <;> rfl

theorem SameFrame.trans {b b' b'' : Block} (h : SameFrame b b') (h' : SameFrame b' b'') : SameFrame b b'' where
  inProgress := h'.inProgress
  run := h'.run.trans h.run
  fatal := h'.fatal.trans h.fatal
  swapPending := h'.swapPending.trans h.swapPending
  cancelPending := h'.cancelPending.trans h.cancelPending
  srcId := h'.srcId.trans h.srcId
  lastResult := h'.lastResult.trans h.lastResult
  framesAttempted := h'.framesAttempted.trans h.framesAttempted
  framesOk := h'.framesOk.trans h.framesOk
  framesDropped := h'.framesDropped.trans h.framesDropped
  inBuf := h'.inBuf.trans h.inBuf

section
variable {s : State} {u : RawUnit} (hw : s.config.codecWriteLen = 255)

/-- The first step of the cycle. -/
theorem cycleAt_acquireUnit (ha : s.agenda = []) (hr : s.outReady = true) :
    CycleAt s u codeDeint [] [] (acquireUnit u s) where
  state := rfl
  agenda := ha
  config := rfl
  sources := rfl
  outReady := hr
  frame := ⟨rfl, rfl, rfl, rfl, rfl, rfl, rfl, rfl, rfl, rfl, rfl⟩
  path := framePath_of_other (code := codeDeint) rfl (by decide)
  sink := (List.append_nil _).symm
  codecCalls := (List.append_nil _).symm

variable {code code' : BitVec 4} {frames frames' : List Frame} {calls calls' : List CodecCall} {t t' : State}

include hw in
/-- A turn short of RELEASE takes the cycle further. -/
theorem CycleAt.turn (h : CycleAt s u code frames calls t) (hc : code ≠ codeRelease) (he : TurnEffect t t')
    (hstate : t'.block.state = code') (hsink : t'.sink = t.sink ++ frames')
    (hcalls : t'.codecCalls = t.codecCalls ++ calls') : CycleAt s u code' (frames ++ frames') (calls ++ calls') t' := by
  have hp := h.frame.inProgress
  have hmoved : SameFrame t.block t'.block ∧ t'.sources = t.sources := by
    rcases he.by_phase with rfl | ⟨hs, -⟩ | ⟨hs, -⟩ | ⟨-, -, hf, hsrc⟩ | ⟨hs, -⟩
    · exact ⟨⟨hp, rfl, rfl, rfl, rfl, rfl, rfl, rfl, rfl, rfl, rfl⟩, rfl⟩
    · exact absurd hs (not_fetch_of_inProgress hp)
    · exact absurd hs (not_fetch_of_inProgress hp)
    · exact ⟨hf, hsrc⟩
    · exact absurd (h.state.symm.trans hs) hc
  have hpath := he.framePath (by rw [h.config]; exact hw) (by rw [h.config]; exact h.path)
  rw [he.config_eq, h.config] at hpath
  exact {
    state := hstate
    agenda := he.agenda_eq.trans h.agenda
    config := he.config_eq.trans h.config
    sources := hmoved.2.trans h.sources
    outReady := he.outReady_eq.trans h.outReady
    frame := h.frame.trans hmoved.1
    path := hpath
    sink := by rw [hsink, h.sink, List.append_assoc]
    codecCalls := by rw [hcalls, h.codecCalls, List.append_assoc] }

/-! ## The steps of a cycle -/

include hw in
/-- DEINT leaves the cycle in DECODE on codeword 0. -/
theorem CycleAt.deint (h : CycleAt s u codeDeint frames calls t) :
    step t = .next (deintStep t) ∧ CycleAt s u codeDecode frames calls (deintStep t) := by
  refine ⟨step_of_nil (i := .deint) h.agenda (by rw [h.state]; rfl), ?_⟩
  have hnext := h.turn hw (by decide) (.deinterleaved h.state) rfl (List.append_nil _).symm (List.append_nil _).symm
  rwa [List.append_nil, List.append_nil] at hnext

/-- In DECODE `CW` holds the codewords of the unit. -/
theorem CycleAt.cw_eq (h : CycleAt s u codeDecode frames calls t) : t.block.cw = codewordsOf s.config u := by
  have hrows := (h.path.inDecode h.state).1
  rwa [h.frame.inBuf] at hrows

/-- The call DECODE makes on codeword `k`. -/
theorem CycleAt.call_eq (h : CycleAt s u codeDecode frames calls t) {k : Fin 5} (hk : t.block.cwIdx.toNat = k.val) :
    ({ index := t.block.cwIdx, codeword := t.block.cw[k] } : CodecCall) = callFor (codewordsOf s.config u) k := by
  rw [callFor, h.cw_eq, cwIdx_eq_ofNat hk]

include hw in
/-- DECODE on a codeword the codec corrects. -/
theorem CycleAt.decode_ok (h : CycleAt s u codeDecode frames calls t) {k : Fin 5} (hk : t.block.cwIdx.toNat = k.val)
    {msg : Codeword} (ha : callCodec s.config.codec (codewordsOf s.config u)[k] = .answer true msg) :
    ∃ t', step t = .next t' ∧
      CycleAt s u (if k.val = 4 then codeReint else codeDecode) frames (calls ++ [callFor (codewordsOf s.config u) k]) t' ∧
      t'.block.cwIdx.toNat = if k.val = 4 then 4 else k.val + 1 := by
  rw [← h.cw_eq, ← h.config] at ha
  have hstep := step_of_nil (i := .decode) h.agenda (by rw [h.state]; rfl)
  rw [exec_decode, decodeCodeword_of_answer hk ha, if_pos rfl] at hstep
  refine ⟨_, hstep, ?_, acceptCodeword_cwIdx (s := recordCall t.block.cwIdx t.block.cw[k] t) hk msg⟩
  have hnext := h.turn hw (code' := if k.val = 4 then codeReint else codeDecode) (by decide)
    (.corrected k msg h.state hk ha) ?_ (List.append_nil _).symm rfl
  · rwa [List.append_nil, h.call_eq hk] at hnext
  · rw [acceptCodeword_eq (s := recordCall t.block.cwIdx t.block.cw[k] t) hk, withBlock_block, recordCall_block, h.state]

include hw in
/-- DECODE on a codeword the codec cannot correct. -/
theorem CycleAt.decode_fails (h : CycleAt s u codeDecode frames calls t) {k : Fin 5} (hk : t.block.cwIdx.toNat = k.val)
    {msg : Codeword} (ha : callCodec s.config.codec (codewordsOf s.config u)[k] = .answer false msg) :
    ∃ t', step t = .next t' ∧
      CycleAt s u codeRelease frames (calls ++ [callFor (codewordsOf s.config u) k]) t' := by
  rw [← h.cw_eq, ← h.config] at ha
  have hstep := step_of_nil (i := .decode) h.agenda (by rw [h.state]; rfl)
  rw [exec_decode, decodeCodeword_of_answer hk ha, if_neg (by decide)] at hstep
  refine ⟨_, hstep, ?_⟩
  have hnext := h.turn hw (by decide) (.uncorrectable k msg h.state hk ha) rfl (List.append_nil _).symm rfl
  rwa [List.append_nil, h.call_eq hk] at hnext

include hw in
theorem CycleAt.reint (h : CycleAt s u codeReint frames calls t) :
    step t = .next (reintStep t) ∧ CycleAt s u codeEmit frames calls (reintStep t) := by
  refine ⟨step_of_nil (i := .reint) h.agenda (by rw [h.state]; rfl), ?_⟩
  have hnext := h.turn hw (by decide) (.reinterleaved h.state) rfl (List.append_nil _).symm (List.append_nil _).symm
  rwa [List.append_nil, List.append_nil] at hnext

include hw in
/-- EMIT pushes the decoded frame of the unit. -/
theorem CycleAt.emit (h : CycleAt s u codeEmit frames calls t) :
    ∃ t', step t = .next t' ∧ CycleAt s u codeRelease (frames ++ [decodedFrame s.config u]) calls t' := by
  have hstep := step_of_nil (i := .emit) h.agenda (by rw [h.state]; rfl)
  have hout : t.block.outBuf = decodedFrame s.config u := by
    have hout := (h.path.inEmit h.state).2
    rwa [h.frame.inBuf] at hout
  have hnext := h.turn hw (code' := codeRelease) (by decide) (.emitted h.state h.outReady) rfl rfl (List.append_nil _).symm
  rw [List.append_nil, hout] at hnext
  exact ⟨_, hstep.trans ((emitPushesWhenReady t).1 h.outReady), hout ▸ hnext⟩

include hw in
/-- The first two steps of a cycle. -/
theorem cycle_start (ha : s.agenda = []) (hs : s.block.state = codeFetch) (hr : s.outReady = true)
    (hp : poll s.sources s.block.srcId = .unit u) :
    ∃ t, Host.Core.run Sys2Proof.core 2 s = .next t ∧ CycleAt s u codeDecode [] [] t ∧ t.block.cwIdx.toNat = 0 := by
  have hfetch : step s = .next (fetchStep s) := step_of_nil (i := .fetch) ha (by rw [hs]; rfl)
  rw [fetchStep_of_unit hp] at hfetch
  obtain ⟨hdeint, hat⟩ := (cycleAt_acquireUnit ha hr).deint hw
  exact ⟨_, run_snoc (run_succ hfetch) hdeint, hat, rfl⟩

end

/-! ## The end of a cycle -/

/-- How a cycle on a unit of `s` ends in `t`, up to the outcome it reports. -/
structure CycleEnds (s : State) (frames : List Frame) (calls : List CodecCall) (t : State) : Prop where
  sink : t.sink = s.sink ++ frames
  codecCalls : t.codecCalls = s.codecCalls ++ calls
  sources : t.sources = releaseUnit s.sources s.block.srcId
  state : t.block.state = if s.block.cancelPending || !s.block.run then codeIdle else codeFetch
  framesAttempted : t.block.framesAttempted = s.block.framesAttempted + 1#32

/-- RELEASE ends the cycle, with the request and the mode that were there at its start. -/
theorem CycleAt.release {s t : State} {u : RawUnit} {frames : List Frame} {calls : List CodecCall}
    (h : CycleAt s u codeRelease frames calls t) :
    step t = .next (releaseStep t) ∧ CycleEnds s frames calls (releaseStep t) := by
  refine ⟨step_of_nil (i := .release) h.agenda (by rw [h.state]; rfl), ?_⟩
  rw [releaseStep_eq]
  refine ⟨h.sink, h.codecCalls, ?_, ?_, h.frame.framesAttempted⟩
  · rw [withBlock_sources, withSources_sources, h.sources, h.frame.srcId]
    rfl
  · rw [withBlock_block, releasedBlock, h.frame.cancelPending, h.frame.run]
    rfl

/-- A frame whose codewords are all correctable is counted and reported as emitted. -/
theorem CycleAt.reports_ok {s t : State} {u : RawUnit} {frames : List Frame} {calls : List CodecCall}
    (h : CycleAt s u codeRelease frames calls t) (hf : firstFailure s.config (codewordsOf s.config u) = none) :
    (releaseStep t).block.framesOk = s.block.framesOk + 1#32 ∧
    (releaseStep t).block.framesDropped = s.block.framesDropped ∧
    (releaseStep t).block.lastResult = 0x27DCFF01#32 := by
  have hlatch := h.path.inRelease h.state
  rw [h.frame.inBuf, show (acquireUnit u s).block.inBuf = u from rfl, hf] at hlatch
  obtain ⟨-, ⟨-, hok, hdropped, hw⟩ | ⟨hk, -⟩⟩ := releaseStep_reports t
  · rw [hok, hdropped, hw, h.frame.framesOk, h.frame.framesDropped]
    exact ⟨rfl, rfl, resultOk_eq⟩
  · exact absurd (hlatch.1.symm.trans hk) nofun

/-- A frame is counted and reported as dropped at its first uncorrectable codeword. -/
theorem CycleAt.reports_dropped {s t : State} {u : RawUnit} {frames : List Frame} {calls : List CodecCall} {k : Fin 5}
    (h : CycleAt s u codeRelease frames calls t) (hf : firstFailure s.config (codewordsOf s.config u) = some k) :
    (releaseStep t).block.framesOk = s.block.framesOk ∧
    (releaseStep t).block.framesDropped = s.block.framesDropped + 1#32 ∧
    (releaseStep t).block.lastResult = 0x0004FF02#32 + BitVec.ofNat 32 (4 * k.val) := by
  have hlatch := h.path.inRelease h.state
  rw [h.frame.inBuf, show (acquireUnit u s).block.inBuf = u from rfl, hf] at hlatch
  obtain ⟨hkind, hfail⟩ := hlatch
  have hindex : (BitVec.ofNat 3 k.val).toNat = k.val :=
    (BitVec.toNat_ofNat ..).trans (Nat.mod_eq_of_lt (k.isLt.trans (by decide)))
  obtain ⟨-, ⟨hk, -⟩ | ⟨-, hok, hdropped, hw⟩⟩ := releaseStep_reports t
  · exact absurd (hkind.symm.trans hk) nofun
  · rw [hok, hdropped, hw, h.frame.framesOk, h.frame.framesDropped, hfail, resultDropped_eq, hindex]
    exact ⟨rfl, rfl, rfl⟩

/-! ## The whole cycle -/

/-- A codec that keeps the port contract answers with the flag the reference decoder reads. -/
theorem answer_of_correctable {c : Config} {cw : Codeword} {ok : Bool} (hc : keepsPortContract c cw)
    (h : correctable c cw = ok) : ∃ msg, callCodec c.codec cw = .answer ok msg := by
  obtain ⟨ok', msg, ha⟩ := hc
  rw [correctable_of_answer ha] at h
  exact ⟨msg, h ▸ ha⟩

section
variable {s : State} {u : RawUnit} (ha : s.agenda = []) (hs : s.block.state = codeFetch) (hr : s.outReady = true)
  (hp : poll s.sources s.block.srcId = .unit u) (hw : s.config.codecWriteLen = 255)
  (hc : ∀ k : Fin 5, keepsPortContract s.config (codewordsOf s.config u)[k])
include ha hs hr hp hw hc

/-- After the codewords below `n` the cycle stands in DECODE on codeword `n`. -/
theorem cycle_decode {n : Nat} (hn : n ≤ 4)
    (hok : ∀ j : Fin 5, j.val < n → correctable s.config (codewordsOf s.config u)[j] = true) :
    ∃ t, Host.Core.run Sys2Proof.core (n + 2) s = .next t ∧
      CycleAt s u codeDecode [] (callsBelow (codewordsOf s.config u) n) t ∧ t.block.cwIdx.toNat = n := by
  induction n with
  | zero => exact cycle_start hw ha hs hr hp
  | succ n ih =>
    obtain ⟨t, hrun, hat, hidx⟩ := ih (by omega) fun j hj => hok j (by omega)
    have hne : n ≠ 4 := by omega
    obtain ⟨msg, hanswer⟩ := answer_of_correctable (hc ⟨n, by omega⟩) (hok ⟨n, by omega⟩ (Nat.lt_succ_self n))
    obtain ⟨t', hstep, hat', hidx'⟩ := hat.decode_ok hw (k := ⟨n, by omega⟩) hidx hanswer
    rw [if_neg hne] at hat' hidx'
    refine ⟨t', run_snoc hrun hstep, ?_, hidx'⟩
    rwa [callsBelow_succ _ ⟨n, by omega⟩]

/-- A cycle of a unit whose codewords are all correctable: five codec calls, then REINT, EMIT and RELEASE. -/
theorem cycle_decodes (hf : firstFailure s.config (codewordsOf s.config u) = none) :
    ∃ t, Host.Core.run Sys2Proof.core 10 s = .next t ∧
      CycleEnds s [decodedFrame s.config u] (callsThrough (codewordsOf s.config u) 4) t ∧
      t.block.framesOk = s.block.framesOk + 1#32 ∧ t.block.framesDropped = s.block.framesDropped ∧
      t.block.lastResult = 0x27DCFF01#32 := by
  have hok := firstFailure_eq_none.mp hf
  obtain ⟨t₆, hrun, hat, hidx⟩ := cycle_decode ha hs hr hp hw hc (Nat.le_refl 4) fun j _ => hok j
  obtain ⟨msg, hanswer⟩ := answer_of_correctable (hc 4) (hok 4)
  obtain ⟨t₇, hdecode, hreint, -⟩ := hat.decode_ok hw (k := 4) hidx hanswer
  have hcalls := callsThrough_eq (codewordsOf s.config u) 4
  obtain ⟨hstep₈, hemit⟩ := hreint.reint hw
  obtain ⟨t₉, hstep₉, hrelease⟩ := hemit.emit hw
  obtain ⟨hstep₁₀, hends⟩ := hrelease.release
  rw [hcalls]
  exact ⟨_, run_snoc (run_snoc (run_snoc (run_snoc hrun hdecode) hstep₈) hstep₉) hstep₁₀, hends, hrelease.reports_ok hf⟩

/-- A cycle of a unit whose first uncorrectable codeword is `k`: the call for `k` fails, and RELEASE follows. -/
theorem cycle_drops {k : Fin 5} (hf : firstFailure s.config (codewordsOf s.config u) = some k) :
    ∃ t, Host.Core.run Sys2Proof.core (k.val + 4) s = .next t ∧
      CycleEnds s [] (callsThrough (codewordsOf s.config u) k) t ∧
      t.block.framesOk = s.block.framesOk ∧ t.block.framesDropped = s.block.framesDropped + 1#32 ∧
      t.block.lastResult = 0x0004FF02#32 + BitVec.ofNat 32 (4 * k.val) := by
  obtain ⟨hbad, hok⟩ := firstFailure_eq_some.mp hf
  obtain ⟨t, hrun, hat, hidx⟩ := cycle_decode ha hs hr hp hw hc (Nat.le_of_lt_succ k.isLt) hok
  obtain ⟨msg, hanswer⟩ := answer_of_correctable (hc k) hbad
  obtain ⟨t', hdecode, hrelease⟩ := hat.decode_fails hw hidx hanswer
  rw [← callsThrough_eq] at hrelease
  obtain ⟨hstep, hends⟩ := hrelease.release
  exact ⟨_, run_snoc (run_snoc hrun hdecode) hstep, hends, hrelease.reports_dropped hf⟩

end

/-- Settles O55: by the first failing codeword, if there is one. -/
theorem aCycleDecodesOrDropsItsUnit : Obligations.ACycleDecodesOrDropsItsUnit := by
  intro s u ha hs hr hp hw hc rows next
  split
  · next hf =>
    obtain ⟨t, hrun, hends, hok, hdropped, hresult⟩ := cycle_decodes ha hs hr hp hw hc hf
    exact ⟨t, hrun, hends.sink, hends.codecCalls, hends.sources, hends.state, hends.framesAttempted, hok, hdropped,
      hresult⟩
  · next k hf =>
    obtain ⟨t, hrun, hends, hok, hdropped, hresult⟩ := cycle_drops ha hs hr hp hw hc hf
    exact ⟨t, hrun, hends.sink.trans (List.append_nil _), hends.codecCalls, hends.sources, hends.state,
      hends.framesAttempted, hok, hdropped, hresult⟩

end Sys2Proof.Machine
end
